-- ==== Sys2Proof/Word.lean ====
section
/-! DEFINITION. The engine's word and operand widths (00_scope.md R5, R6). -/

namespace Sys2Proof

/-- A *word*: "a 32-bit storage unit" (00_scope.md R5, R6). Bit 31 is the most significant. -/
abbrev Word := BitVec 32

/-- A coordinate operand, 16 bits unsigned (00_scope.md R5 `COORD_BITS`; 30_encoding.md R82). -/
abbrev Coord := BitVec 16

/-- A character operand, a 21-bit code point (00_scope.md R5 `CP_BITS`; 30_encoding.md R90). -/
abbrev CodePoint := BitVec 21

end Sys2Proof
end

