-- ==== Sys2Proof/Config.lean ====
section
/-! DEFINITION. The implementation parameters of 00_scope.md R5 and the fonts of 10_state.md R24, as plain
data; the free values (93_implementation_defined.md U2, U3); the reference device. -/

namespace Sys2Proof

/-- One contiguous range of code points with its lookup table (40_glyphstore.md R111: `(lo, hi, T)`).
`hi` is not stored: it is `lo + table.length - 1`, so the table always has `hi - lo + 1` entries
(DEDUCED, log 9). -/
structure GlyphRange where
  lo : Nat
  table : List Word
deriving DecidableEq, Repr

/-- Font f as the read-only tuple of 10_state.md R24: the glyph data array (`FONT_LEN_f` is its length), the
offset function as the ordered ranges and the replacement index of 40_glyphstore.md R111, and the declared
maximum height. -/
structure Font where
  data : List Word
  ranges : List GlyphRange
  repl : Word
  maxHeight : Nat
deriving DecidableEq, Repr

/-- `FONT_LEN_f`, the length of the data array in words (10_state.md R24). -/
def Font.len (fnt : Font) : Nat := fnt.data.length

/-- The order of the four bytes of a word in a host's byte view of FB (20_memory.md R59 `HOST_BYTE_ORDER`):
an open parameter, used by no rule. -/
inductive ByteOrder where
  | bigEndian
  | littleEndian
deriving DecidableEq, Repr

/-- The font number of a command: "0 = bold, 1 = regular, 2 = small" (10_state.md R23). -/
inductive FontNo where
  | bold
  | regular
  | small
deriving DecidableEq, Repr

/-- The parameters of 00_scope.md R5 that are not fixed, and the open parameters of 92_eei_decisions.md. -/
structure Config where
  /-- `WORDS_PER_LINE` (WPL). -/
  wpl : Nat
  /-- `LINES`. -/
  lines : Nat
  /-- `LINE_WIDTH`: exclusive upper bound of a Region's `x1`. -/
  lineWidth : Nat
  /-- `FONT[0]`. -/
  bold : Font
  /-- `FONT[1]`. -/
  regular : Font
  /-- `FONT[2]`. -/
  small : Font
  /-- `REG_BASE`, used by no rule (10_state.md R26). -/
  regBase : Nat
  /-- `FB_BASE`, used by no rule (20_memory.md R62). -/
  fbBase : Nat
  /-- `HOST_BYTE_ORDER`, used by no rule (20_memory.md R59). -/
  hostByteOrder : ByteOrder
deriving DecidableEq, Repr

/-- The font a font number names (10_state.md R23). -/
def Config.font (c : Config) : FontNo → Font
  | .bold => c.bold
  | .regular => c.regular
  | .small => c.small

/-- `FB_WORDS = WPL·LINES` (00_scope.md R5). -/
def Config.fbWords (c : Config) : Nat := c.wpl * c.lines

/-- `PAD_BITS = 32·WPL − LINE_WIDTH`, the bits of a line at columns at or past `LINE_WIDTH` (00_scope.md R5). -/
def Config.padBits (c : Config) : Nat := 32 * c.wpl - c.lineWidth

/-- The FREE VALUE of FB word `i` after reset number `n` (10_state.md R35: "unspecified: any 32-bit value,
independently per word"; 93_implementation_defined.md U2, U3). No body: nothing can be proved of it
(log 4). -/
opaque Config.freeFbWord : Nat → Nat → Word

/-- A frame buffer of free values: what FB holds after reset number `n` (10_state.md R35). -/
def Config.freeFb (c : Config) (n : Nat) : List Word :=
  (List.range c.fbWords).map (Config.freeFbWord n)

/-- Test font TF0 of 95_test_vectors.md section 2. -/
def testFont0 : Font where
  data := [0x00030300, 0xF7800000, 0x00050701, 0x7463F8C6, 0x20000000, 0x00121008] ++
    [0x7543334C, 0x125DBD2D, 0x7284DE38, 0xAA9EA0FB, 0xCB42A630, 0x6073E207, 0xD99D5243, 0x6C4D000B,
      0x2061BB6A] ++
    [0x00200200, 0x80000001, 0xFFFFFFFF, 0x00210100, 0xFFFFFFFF, 0x80000000, 0x00040000, 0x00000500]
  ranges := [
    { lo := 0x20, table := [21] ++ List.replicate 31 0 ++ [5, 2] ++ List.replicate 21 0 ++ [15, 18] },
    { lo := 0x200B, table := [22] }]
  repl := 0
  maxHeight := 24

/-- Test font TF1 of 95_test_vectors.md section 2. -/
def testFont1 : Font where
  data := [0x00020200, 0xF0000000]
  ranges := []
  repl := 0
  maxHeight := 2

/-- Test font TF2 of 95_test_vectors.md section 2. -/
def testFont2 : Font where
  data := [0x00010100, 0x80000000]
  ranges := []
  repl := 0
  maxHeight := 1

/-- The reference geometry of 00_scope.md R5 (WPL 11, LINES 536, LINE_WIDTH 336). DESIGN CHOICE: the spec has no
font contents (10_state.md R24), the model's reset state holds the spec's test fonts (log 2); bus addresses and
byte order are open (log 12). -/
def Config.reference : Config where
  wpl := 11
  lines := 536
  lineWidth := 336
  bold := testFont0
  regular := testFont1
  small := testFont2
  regBase := 0
  fbBase := 12
  hostByteOrder := .bigEndian

end Sys2Proof
end

