-- ==== Sys2Proof/Syntax.lean ====
section
/-! DEFINITION. The commands of 30_encoding.md R84, one constructor per row of spec/opcode_table.json, and the
reasons of 30_encoding.md R87 for which a word sequence is no command. -/

namespace Sys2Proof

/-- A *Region*: "`x0,y0` inclusive and `x1,y1` exclusive" (00_scope.md R8). -/
structure Region where
  x0 : Coord
  y0 : Coord
  x1 : Coord
  y1 : Coord
deriving DecidableEq, Repr

/-- The nine commands (30_encoding.md R84) with their decoded operands (30_encoding.md R93). -/
inductive Instr where
  /-- `XORCHAR font, (x0,y0)-(x1,y1), @(x,y), char` (41_xorchar.md R120). -/
  | xorchar (f : FontNo) (r : Region) (x y : Coord) (cp : CodePoint)
  /-- `DRAWSTR font, (x0,y0)-(x1,y1), @(x,y), string` (42_string.md R140). -/
  | drawstr (f : FontNo) (r : Region) (x y : Coord) (str : List CodePoint)
  /-- `STRWIDTH font, string` (42_string.md R142). -/
  | strwidth (f : FontNo) (str : List CodePoint)
  /-- `CLEAR (x0,y0)-(x1,y1)` (43_region.md R152). -/
  | clear (r : Region)
  /-- `INVERT (x0,y0)-(x1,y1)` (43_region.md R153). -/
  | invert (r : Region)
  /-- `OUTLINE y0..y1` (43_region.md R156). -/
  | outline (y0 y1 : Coord)
  /-- `LINEFILL line y, pattern` (43_region.md R158). -/
  | linefill (y : Coord) (pat : List Word)
  /-- `GOFF font, char` (40_glyphstore.md R112). -/
  | goff (f : FontNo) (cp : CodePoint)
  /-- `GHDR font, index` (40_glyphstore.md R113). -/
  | ghdr (f : FontNo) (index : Word)
deriving DecidableEq, Repr

/-- Why a word sequence is no command. The engine records none of these (60_exceptions.md R182); they are the
decoder's names for the clauses of 30_encoding.md R87. -/
inductive Illegal where
  /-- Not `1 + LEN` words: the sequence is no complete command (30_encoding.md R80). The engine never decodes
  such a sequence (10_state.md R29). -/
  | incomplete
  /-- R87 clause 1: `OP` is 0x0 or 0xA .. 0xF. -/
  | opcode
  /-- R87 clause 2: `W0[25:16]` is not 0. -/
  | reservedBits
  /-- R87 clause 3: the FONT field violates R86. -/
  | font
  /-- R87 clause 4: LEN does not fit the command's format. -/
  | length
  /-- R87 clause 5: a `CH` word has one of bits 31:21 set. -/
  | charBits
  /-- R87 clause 6: the `LN` word has one of bits 31:16 set. -/
  | lineBits
deriving DecidableEq, Repr

end Sys2Proof
end

