-- ==== Sys2Proof/WellFormed.lean ====
section
/-! DEFINITION. Which commands can be encoded (30_encoding.md R83) and which parameters are admitted
(00_scope.md R5; 10_state.md R24). -/

namespace Sys2Proof

/-- A command that has an encoding on a device of `wpl` words per line (30_encoding.md R83): a string of at most
65532 characters (`DRAWSTR`) or 65535 characters (`STRWIDTH`), a pattern of exactly WPL words. The other operands
are bounded by their types. -/
def Instr.wellFormed (wpl : Nat) : Instr → Bool
  | .xorchar _ _ _ _ _ => true
  | .drawstr _ _ _ _ str => decide (str.length ≤ 65532)
  | .strwidth _ str => decide (str.length ≤ 65535)
  | .clear _ => true
  | .invert _ => true
  | .outline _ _ => true
  | .linefill _ pat => decide (pat.length = wpl)
  | .goff _ _ => true
  | .ghdr _ _ => true

/-- `RANGES_f`'s constraint: every code point of a range is below 2^21 (40_glyphstore.md R111). -/
def GlyphRange.ok (g : GlyphRange) : Bool := decide (g.lo + g.table.length ≤ 2 ^ 21)

/-- The constraints of 10_state.md R24 on a font's parameters: `1 ≤ FONT_LEN_f < 2^32`, `MAX_HEIGHT_f ≤ 510`. -/
def Font.ok (fnt : Font) : Bool :=
  decide (1 ≤ fnt.len) && decide (fnt.len < 2 ^ 32) && decide (fnt.maxHeight ≤ 510) && fnt.ranges.all GlyphRange.ok

/-- The constraints every instantiation of the parameters must meet (00_scope.md R5, last column; 10_state.md
R24). -/
def Config.ok (c : Config) : Bool :=
  decide (1 ≤ c.wpl) && decide (c.wpl ≤ 2047) && decide (1 ≤ c.lines) && decide (c.lines ≤ 65535) &&
    decide (1 ≤ c.lineWidth) && decide (c.lineWidth ≤ 32 * c.wpl) &&
    c.bold.ok && c.regular.ok && c.small.ok

end Sys2Proof
end

