-- ==== Sys2Proof/Decode.lean ====
section
/-! DEFINITION. The decoder of 30_encoding.md R93, total on any word sequence and rejecting by the name of the
clause of R87 that is violated; then the encoder, written from the formats of R81 to R84. -/

namespace Sys2Proof

/-! ### Fields of the header word (R81) and of the operand words (R82) -/

/-- `OP = W0[31:28]` (30_encoding.md R81). -/
def opField (w0 : Word) : BitVec 4 := w0.extractLsb' 28 4

/-- `FONT = W0[27:26]` (30_encoding.md R81). -/
def fontField (w0 : Word) : BitVec 2 := w0.extractLsb' 26 2

/-- `W0[25:16]`, reserved, must be 0 (30_encoding.md R81). -/
def reservedField (w0 : Word) : BitVec 10 := w0.extractLsb' 16 10

/-- `LEN = W0[15:0]`, the number of words that follow the header (30_encoding.md R80, R81). -/
def lenField (w0 : Word) : Nat := (w0.extractLsb' 0 16).toNat

/-- Bits 31:16 of an operand word: `x0`, `y0`, an anchor's `x` (30_encoding.md R82). -/
def hiHalf (w : Word) : Coord := w.extractLsb' 16 16

/-- Bits 15:0 of an operand word: `x1`, `y1`, an anchor's `y`, a line number (30_encoding.md R82). -/
def loHalf (w : Word) : Coord := w.extractLsb' 0 16

/-- `isCH(v) = (v[31:21] == 0)` (30_encoding.md R93). -/
def isCH (w : Word) : Bool := w.extractLsb' 21 11 == 0

/-- The code point of a `CH` word, bits 20:0 (30_encoding.md R82). -/
def chPoint (w : Word) : CodePoint := w.extractLsb' 0 21

/-- A Region from its `XB` and `YB` words (30_encoding.md R82). -/
def regionOf (xb yb : Word) : Region where
  x0 := hiHalf xb
  y0 := hiHalf yb
  x1 := loHalf xb
  y1 := loHalf yb

/-- The font a FONT field names; 3 names none (30_encoding.md R86). -/
def fontOf (b : BitVec 2) : Option FontNo :=
  match b.toNat with
  | 0 => some .bold
  | 1 => some .regular
  | 2 => some .small
  | _ => none

/-! ### The decoder -/

/-- For the commands that take a font: f, unless FONT is 3 (30_encoding.md R86). -/
def withFont (w0 : Word) (k : FontNo → Except Illegal Instr) : Except Illegal Instr :=
  match fontOf (fontField w0) with
  | some f => k f
  | none => .error .font

/-- For the commands that take no font: "the field must be 0" (30_encoding.md R86). -/
def withoutFont (w0 : Word) (k : Except Illegal Instr) : Except Illegal Instr :=
  if fontField w0 = 0 then k else .error .font

/-- Format G, OP 0x1 (30_encoding.md R83, R93). -/
def decodeXorchar (f : FontNo) (ops : List Word) : Except Illegal Instr :=
  match ops with
  | [xb, yb, an, ch] =>
    if isCH ch then .ok (.xorchar f (regionOf xb yb) (hiHalf an) (loHalf an) (chPoint ch)) else .error .charBits
  | _ => .error .length

/-- Format S, OP 0x2: every character is checked before anything is executed (30_encoding.md R83, R87, R93). -/
def decodeDrawstr (f : FontNo) (ops : List Word) : Except Illegal Instr :=
  match ops with
  | xb :: yb :: an :: chs =>
    if chs.all isCH then .ok (.drawstr f (regionOf xb yb) (hiHalf an) (loHalf an) (chs.map chPoint))
    else .error .charBits
  | _ => .error .length

/-- Format W, OP 0x3 (30_encoding.md R83, R93). -/
def decodeStrwidth (f : FontNo) (ops : List Word) : Except Illegal Instr :=
  if ops.all isCH then .ok (.strwidth f (ops.map chPoint)) else .error .charBits

/-- Format R, OP 0x4 and 0x5 (30_encoding.md R83, R93). -/
def decodeRegion (mk : Region → Instr) (ops : List Word) : Except Illegal Instr :=
  match ops with
  | [xb, yb] => .ok (mk (regionOf xb yb))
  | _ => .error .length

/-- Format Y, OP 0x6 (30_encoding.md R83, R93). -/
def decodeOutline (ops : List Word) : Except Illegal Instr :=
  match ops with
  | [yb] => .ok (.outline (hiHalf yb) (loHalf yb))
  | _ => .error .length

/-- Format L, OP 0x7: exactly WPL pattern words, `LN[31:16] = 0` (30_encoding.md R83, R93). -/
def decodeLinefill (wpl : Nat) (ops : List Word) : Except Illegal Instr :=
  match ops with
  | ln :: pat =>
    if pat.length = wpl then
      if hiHalf ln = 0 then .ok (.linefill (loHalf ln) pat) else .error .lineBits
    else .error .length
  | _ => .error .length

/-- Format Q, OP 0x8 (30_encoding.md R83, R93). -/
def decodeGoff (f : FontNo) (ops : List Word) : Except Illegal Instr :=
  match ops with
  | [ch] => if isCH ch then .ok (.goff f (chPoint ch)) else .error .charBits
  | _ => .error .length

/-- Format X, OP 0x9 (30_encoding.md R83, R93). -/
def decodeGhdr (f : FontNo) (ops : List Word) : Except Illegal Instr :=
  match ops with
  | [ix] => .ok (.ghdr f ix)
  | _ => .error .length

/-- A complete command's decoding, header and operands apart (30_encoding.md R93). -/
def decodeCommand (wpl : Nat) (w0 : Word) (ops : List Word) : Except Illegal Instr :=
  if reservedField w0 ≠ 0 then .error .reservedBits
  else
    match (opField w0).toNat with
    | 0x1 => withFont w0 fun f => decodeXorchar f ops
    | 0x2 => withFont w0 fun f => decodeDrawstr f ops
    | 0x3 => withFont w0 fun f => decodeStrwidth f ops
    | 0x4 => withoutFont w0 (decodeRegion .clear ops)
    | 0x5 => withoutFont w0 (decodeRegion .invert ops)
    | 0x6 => withoutFont w0 (decodeOutline ops)
    | 0x7 => withoutFont w0 (decodeLinefill wpl ops)
    | 0x8 => withFont w0 fun f => decodeGoff f ops
    | 0x9 => withFont w0 fun f => decodeGhdr f ops
    | _ => .error .opcode

/-- `decode(W)` of 30_encoding.md R93 on a device of `wpl` words per line, for any word sequence. -/
def decode (wpl : Nat) (ws : List Word) : Except Illegal Instr :=
  match ws with
  | [] => .error .incomplete
  | w0 :: ops => if ops.length = lenField w0 then decodeCommand wpl w0 ops else .error .incomplete

/-! ### The encoder -/

/-- The FONT field of a font number (30_encoding.md R86). -/
def fontBits : FontNo → BitVec 2
  | .bold => 0
  | .regular => 1
  | .small => 2

/-- A header word (30_encoding.md R81). -/
def headerWord (op : BitVec 4) (font : BitVec 2) (len : Nat) : Word :=
  op ++ font ++ (0 : BitVec 10) ++ BitVec.ofNat 16 len

/-- An operand word of two halves, the first-named in bits 31:16 (30_encoding.md R82). -/
def halves (hi lo : Coord) : Word := hi ++ lo

/-- A `CH` word (30_encoding.md R82). -/
def chWord (cp : CodePoint) : Word := (0 : BitVec 11) ++ cp

/-- An `XB` word. -/
def xbWord (r : Region) : Word := halves r.x0 r.x1

/-- A `YB` word. -/
def ybWord (r : Region) : Word := halves r.y0 r.y1

/-- The words of a command (30_encoding.md R83, R84, R91). -/
def encode : Instr → List Word
  | .xorchar f r x y cp => [headerWord 0x1 (fontBits f) 4, xbWord r, ybWord r, halves x y, chWord cp]
  | .drawstr f r x y str =>
    headerWord 0x2 (fontBits f) (3 + str.length) :: xbWord r :: ybWord r :: halves x y :: str.map chWord
  | .strwidth f str => headerWord 0x3 (fontBits f) str.length :: str.map chWord
  | .clear r => [headerWord 0x4 0 2, xbWord r, ybWord r]
  | .invert r => [headerWord 0x5 0 2, xbWord r, ybWord r]
  | .outline y0 y1 => [headerWord 0x6 0 1, halves y0 y1]
  | .linefill y pat => headerWord 0x7 0 (1 + pat.length) :: halves 0 y :: pat
  | .goff f cp => [headerWord 0x8 (fontBits f) 1, chWord cp]
  | .ghdr f index => [headerWord 0x9 (fontBits f) 1, index]

/-! ### Instructions numbered as spec/opcode_table.json numbers them -/

/-- Word `k` of an instruction whose bits are `w`, bit 0 the least significant bit of the FIRST word; every bit
at or above `nbits` is 0. -/
def tableWord (nbits w k : Nat) : Word := BitVec.ofNat 32 ((w % 2 ^ nbits) >>> (32 * k))

/-- The `1 + LEN` words of that instruction, LEN taken from its own header (30_encoding.md R80). -/
def tableWords (nbits w : Nat) : List Word :=
  (List.range (1 + lenField (tableWord nbits w 0))).map (tableWord nbits w)

/-- The instruction the decoder reads from those words on the reference device (WPL = 11). -/
def decodeTableWord (nbits w : Nat) : Option Instr :=
  match decode Config.reference.wpl (tableWords nbits w) with
  | .ok i => some i
  | .error _ => none

end Sys2Proof
end

