-- ==== Sys2Proof/Machine/State.lean ====
section
/-! DEFINITION. The engine's state (10_state.md R20 to R35), the host's moves, the stops, and the state after
reset. -/

namespace Sys2Proof.Machine

/-- The three registers the host sees (10_state.md R26). -/
inductive HostReg where
  | cmd
  | result
  | status
deriving DecidableEq, Repr

/-- What the host can do between two commands (10_state.md R22, R26; 20_memory.md R69; 70_reset_and_hazards.md
R200). -/
inductive HostMove where
  /-- Write `v` to a register; a write of `CMD` pushes one command word (10_state.md R26, R29). -/
  | regWrite (r : HostReg) (v : Word)
  /-- Read a register (10_state.md R26). -/
  | regRead (r : HostReg)
  /-- Write FB word `i` while the engine is idle (20_memory.md R69). -/
  | fbWrite (i : Nat) (v : Word)
  /-- Read FB word `i` while the engine is idle (20_memory.md R69). -/
  | fbRead (i : Nat)
  /-- Apply reset (70_reset_and_hazards.md R200, R201). -/
  | reset
deriving DecidableEq, Repr

/-- The complete state of the engine, "the tuple (FB, RESULT, STATUS.ILL, CBUF)" (10_state.md R20), beside the
parameters it runs with and the model's own fields. STATUS's other bits are functions of these
(Machine/Flags.lean). -/
structure State where
  /-- The parameters of 00_scope.md R5. Constant: no step changes it (log 1). -/
  cfg : Config
  /-- `FB`: word index i holds line `i div WPL`, in-line word `i mod WPL` (10_state.md R21; log 3). -/
  fb : List Word
  /-- `RESULT` (10_state.md R27). -/
  result : Word
  /-- `STATUS.ILL`, sticky (10_state.md R28). -/
  ill : Bool
  /-- `CBUF`: the words of a command received so far and not yet executed, first word first (10_state.md R29). -/
  cbuf : List Word
  /-- The model's own: the host's moves still to come, oldest first. -/
  input : List HostMove
  /-- The model's own: the data the host's last read was answered with. -/
  readData : Word
  /-- The model's own: how many resets have been applied, the counter that picks FB's free values. -/
  resets : Nat
deriving DecidableEq, Repr

/-- Why a step stops with a fault. The engine itself raises nothing (60_exceptions.md R185). -/
inductive Fault where
  /-- Raised by a host read or write of an FB word index at or past `FB_WORDS`: the word does not exist
  (20_memory.md R55 requires `0 ≤ i < FB_WORDS`). Safe: the model stops where no behaviour is given. -/
  | noSuchFbWord (i : Nat)
deriving DecidableEq, Repr

/-- Why a step has no meaning. -/
inductive Refusal where
  /-- Raised by an instruction that has no meaning yet. Safe. -/
  | notModelled (mnemonic : String)
  /-- Raised by `XORCHAR`, `DRAWSTR` and `STRWIDTH` when they read font `f` at a word index at or past
  `FONT_LEN_f` (93_implementation_defined.md U1: "`refuse`"). Safe: no behaviour is given. -/
  | fontReadOutOfRange (f : FontNo)
deriving DecidableEq, Repr

/-! ### Named updates -/

/-- Replace FB. -/
def State.withFb (s : State) (fb : List Word) : State := { s with fb := fb }

/-- `RESULT <- v` (00_scope.md R7). -/
def State.withResult (s : State) (v : Word) : State := { s with result := v }

/-- Replace `STATUS.ILL`. -/
def State.withIll (s : State) (b : Bool) : State := { s with ill := b }

/-- Replace CBUF. -/
def State.withCbuf (s : State) (ws : List Word) : State := { s with cbuf := ws }

/-- Replace the host's moves still to come. -/
def State.withInput (s : State) (ms : List HostMove) : State := { s with input := ms }

/-- Answer a host read. -/
def State.withReadData (s : State) (v : Word) : State := { s with readData := v }

/-- Count a reset. -/
def State.withResets (s : State) (n : Nat) : State := { s with resets := n }

/-- The machine right after reset (10_state.md R35): RESULT 0, ILL 0, CBUF empty, every FB word a free value, on
the reference device. The model's own fields start empty, 0 and 0 (log 4, 5, 10). -/
def State.reset : State where
  cfg := Config.reference
  fb := Config.reference.freeFb 0
  result := 0
  ill := false
  cbuf := []
  input := []
  readData := 0
  resets := 0

end Sys2Proof.Machine
end

