-- ==== Sys2Proof/Machine/Ops.lean ====
section
/-! DEFINITION. The primitives of 00_scope.md R7 over the frame buffer and the fonts, the loop they stand in, and
the two shared outcomes: a rejection and an illegal command. -/

namespace Sys2Proof.Machine

/-! ### Loops (00_scope.md R7) -/

/-- `body` run for `a, a+1, …, a+n−1`, in that order. -/
def iterate {α : Type} (body : Nat → α → α) (a : Nat) : Nat → α → α
  | 0, x => x
  | n + 1, x => body (a + n) (iterate body a n x)

/-- "Loops `for r in a .. b` run r = a, a+1, ..., b−1 in that order and run zero times when a ≥ b"
(00_scope.md R7). -/
def forLoop {α : Type} (a b : Nat) (body : Nat → α → α) (x : α) : α := iterate body a (b - a) x

/-- `iterate` for a body that can fail: the first failure ends the loop. -/
def iterateM {α : Type} (body : Nat → α → Option α) (a : Nat) : Nat → α → Option α
  | 0, x => some x
  | n + 1, x =>
    match iterateM body a n x with
    | some y => body (a + n) y
    | none => none

/-- `forLoop` for a body that can fail. -/
def forLoopM {α : Type} (a b : Nat) (body : Nat → α → Option α) (x : α) : Option α :=
  iterateM body a (b - a) x

/-! ### The frame buffer -/

/-- `FbRead(i)` (20_memory.md R55). R55 requires `i < FB_WORDS`; the value outside is never used (log 14). -/
def fbRead (fb : List Word) (i : Nat) : Word := fb.getD i 0

/-- `FbWrite(i, v)` (20_memory.md R55): every other word is left unchanged. -/
def fbWrite (fb : List Word) (i : Nat) (v : Word) : List Word := fb.set i v

/-- The frame-buffer word index of in-line word `wl` of line `line` (20_memory.md R62). -/
def fbIndex (c : Config) (line wl : Nat) : Nat := line * c.wpl + wl

/-- The guard of 20_memory.md R56: "if line < LINES and wl < WPL". -/
def fbGuard (c : Config) (line wl : Nat) : Bool := decide (line < c.lines) && decide (wl < c.wpl)

/-- `FbXor(line, wl, m)` (20_memory.md R56). -/
def fbXor (c : Config) (line wl : Nat) (m : Word) (fb : List Word) : List Word :=
  if fbGuard c line wl then fbWrite fb (fbIndex c line wl) (fbRead fb (fbIndex c line wl) ^^^ m) else fb

/-- `FbOr(line, wl, m)` (20_memory.md R56). -/
def fbOr (c : Config) (line wl : Nat) (m : Word) (fb : List Word) : List Word :=
  if fbGuard c line wl then fbWrite fb (fbIndex c line wl) (fbRead fb (fbIndex c line wl) ||| m) else fb

/-- `FbSet(line, wl, v)` (20_memory.md R56). -/
def fbSet (c : Config) (line wl : Nat) (v : Word) (fb : List Word) : List Word :=
  if fbGuard c line wl then fbWrite fb (fbIndex c line wl) v else fb

/-- Pixel `j` of a word, counted from its leftmost: "leftmost pixel at bit 31" (20_memory.md R51). -/
def wordPixel (w : Word) (j : Nat) : Bool := w.getLsbD (31 - j)

/-- `Px(px, py) = FB[py·WPL + (px div 32)][31 − (px mod 32)]` (20_memory.md R57). -/
def pixel (c : Config) (fb : List Word) (px py : Nat) : Bool :=
  wordPixel (fbRead fb (fbIndex c py (px / 32))) (px % 32)

/-! ### The fonts -/

/-- `FontRead(f, i)` (20_memory.md R58): no value at or past `FONT_LEN_f` (93_implementation_defined.md U1). -/
def fontRead (fnt : Font) (i : Nat) : Option Word := fnt.data[i]?

/-- One range of `GlyphOffset`: `T_j[c − lo_j]` when `lo_j ≤ c ≤ hi_j` (40_glyphstore.md R111). -/
def rangeLookup (g : GlyphRange) (c : Nat) : Option Word :=
  if g.lo ≤ c then g.table[c - g.lo]? else none

/-- The ranges in the list's order; first match wins (40_glyphstore.md R111). -/
def rangesLookup : List GlyphRange → Nat → Option Word
  | [], _ => none
  | g :: gs, c =>
    match rangeLookup g c with
    | some off => some off
    | none => rangesLookup gs c

/-- `GlyphOffset(f, c)` (40_glyphstore.md R111; 10_state.md R24): total, `REPL_f` when no range matches. -/
def glyphOffset (fnt : Font) (cp : CodePoint) : Word := (rangesLookup fnt.ranges cp.toNat).getD fnt.repl

/-! ### Shared outcomes -/

/-- A rejection of a command that has no result: "FB, RESULT and STATUS all unchanged" (43_region.md R150;
60_exceptions.md R180). -/
def reject (s : State) : Host.Outcome State Fault Refusal := .next s

/-- A rejection of a command that has a result: `RESULT <- 0`, nothing else (60_exceptions.md R180). -/
def rejectZero (s : State) : Host.Outcome State Fault Refusal := .next (s.withResult 0)

/-- An illegal command, its words already consumed: "FB is unchanged; `RESULT <- 0`; `STATUS.ILL <- 1`
(sticky)" (30_encoding.md R88). This is the engine's only reaction to something it cannot execute: it has no
exceptions, no trap entry and no return (60_exceptions.md R185, R186). -/
def illegalCommand (s : State) : Host.Outcome State Fault Refusal := .next ((s.withResult 0).withIll true)

end Sys2Proof.Machine
end

