-- ==== Sys2Proof/Machine/Operands.lean ====
section
/-! DEFINITION. What the commands compute from their operands: the Region check, the glyph of a character, the
column masks and the scanline patterns. -/

namespace Sys2Proof.Machine

/-- `RegionOK(x0,y0,x1,y1)` (00_scope.md R8). -/
def regionOk (c : Config) (r : Region) : Bool :=
  decide (r.x1.toNat ≤ c.lineWidth) && decide (r.y1.toNat ≤ c.lines) &&
    decide (r.x0.toNat < r.x1.toNat) && decide (r.y0.toNat < r.y1.toNat)

/-! ### Glyphs -/

/-- The triple (width, height, y_offset) of a header word, 0..255 each (20_memory.md R52). -/
structure Header where
  width : BitVec 8
  height : BitVec 8
  yOffset : BitVec 8
deriving DecidableEq, Repr

/-- `Header(hw) = (hw[23:16], hw[15:8], hw[7:0])` (40_glyphstore.md R110); bits 31:24 are ignored. -/
def header (hw : Word) : Header where
  width := hw.extractLsb' 16 8
  height := hw.extractLsb' 8 8
  yOffset := hw.extractLsb' 0 8

/-- `off = GlyphOffset(f, cp)`, as an index (41_xorchar.md R121). -/
def glyphIndex (fnt : Font) (cp : CodePoint) : Nat := (glyphOffset fnt cp).toNat

/-- `Header(FontRead(f, off))` (41_xorchar.md R121); none when the header word does not exist. -/
def glyphHeader (fnt : Font) (cp : CodePoint) : Option Header := (fontRead fnt (glyphIndex fnt cp)).map header

/-- `CharWidth(f, c)`: the header's width field, no pad, no limit check (40_glyphstore.md R114). -/
def charWidth (fnt : Font) (cp : CodePoint) : Option Nat := (glyphHeader fnt cp).map fun hd => hd.width.toNat

/-- `GlyphBit(f, off, r, k)` of a glyph of width `w`: payload bit `r·w + k` (20_memory.md R53). A bit of a word
that does not exist is false; no rule uses one under WF-FONT. -/
def glyphBit (fnt : Font) (off w r k : Nat) : Bool :=
  wordPixel ((fontRead fnt (off + 1 + (r * w + k) / 32)).getD 0) ((r * w + k) % 32)

/-- `LEFT_PAD + RIGHT_PAD`, "glyph width + fixed 1 px left pad + 2 px right pad" (00_scope.md R5; 41_xorchar.md
R127). -/
def advancePad : Nat := 3

/-- `MAX_GLYPH_W` (00_scope.md R5). -/
def maxGlyphWidth : Nat := 32

/-! ### Column masks (43_region.md R151) -/

/-- `lo = x0 >> 5`. -/
def maskLo (x0 : Nat) : Nat := x0 >>> 5

/-- `hi = (x1 - 1) >> 5`. -/
def maskHi (x1 : Nat) : Nat := (x1 - 1) >>> 5

/-- `LMASK = 0xFFFFFFFF >> (x0 & 31)`. -/
def leftMask (x0 : Nat) : Word := BitVec.ofNat 32 (0xFFFFFFFF >>> (x0 &&& 31))

/-- `RMASK = (0xFFFFFFFF << (31 - ((x1 - 1) & 31))) & 0xFFFFFFFF`. -/
def rightMask (x1 : Nat) : Word := BitVec.ofNat 32 (0xFFFFFFFF <<< (31 - ((x1 - 1) &&& 31)))

/-- `Mask(wl)`. -/
def columnMask (x0 x1 wl : Nat) : Word :=
  (if wl = maskLo x0 then leftMask x0 else 0xFFFFFFFF) &&& (if wl = maskHi x1 then rightMask x1 else 0xFFFFFFFF)

/-! ### Scanline patterns (43_region.md R155) -/

/-- The 32-pixel word whose pixel `j` (0 leftmost, bit 31) is `f j`. -/
def packWord (f : Nat → Bool) : Word := iterate (fun j w => if f j then w ||| BitVec.ofNat 32 (1 <<< (31 - j)) else w) 0 32 0

/-- `CLEARLINE[p]`: 1 for all p. -/
def clearLine (_c : Config) (_p : Nat) : Bool := true

/-- `SOLIDLINE[p]`: 0 at columns 2 .. LINE_WIDTH−3, 1 at all others, padding bits included. -/
def solidLine (c : Config) (p : Nat) : Bool := !(decide (2 ≤ p) && decide (p + 3 ≤ c.lineWidth))

/-- `BORDERLINE[p]`: 0 at columns 2 and LINE_WIDTH−3, 1 at all others. -/
def borderLine (c : Config) (p : Nat) : Bool := !(decide (p = 2) || decide (p + 3 = c.lineWidth))

/-- Word `wl` of a scanline pattern: column `p` at bit `31 − (p mod 32)` of word `p div 32` (43_region.md
R155). -/
def patternWord (line : Nat → Bool) (wl : Nat) : Word := packWord fun j => line (32 * wl + j)

/-- `P` of `OUTLINE`: which pattern line `py` of the box `y0 .. y1` takes (43_region.md R156). -/
def outlinePattern (c : Config) (y0 y1 py : Nat) : Nat → Bool :=
  let d := py - y0
  let e := (y1 - 1) - py
  if d < 2 ∨ e < 2 then clearLine c
  else if d = 2 ∨ e = 2 then solidLine c
  else borderLine c

/-- `OUTLINE_MIN_H` (00_scope.md R5). -/
def outlineMinHeight : Nat := 6

end Sys2Proof.Machine
end

