-- ==== Sys2Proof/Machine/GlyphStore.lean ====
section
/-! DEFINITION. `GOFF` and `GHDR` (40_glyphstore.md R112, R113). -/

namespace Sys2Proof.Machine

/-- `GOFF(f, cp)`: `RESULT <- GlyphOffset(f, cp)` (40_glyphstore.md R112). -/
def execGoff (f : FontNo) (cp : CodePoint) (s : State) : Host.Outcome State Fault Refusal :=
  .next (s.withResult (glyphOffset (s.cfg.font f) cp))

/-- `(w << 16) | (h << 8) | yo`, bits 31:24 zero (40_glyphstore.md R113). -/
def headerResult (hd : Header) : Word := (0 : BitVec 8) ++ hd.width ++ hd.height ++ hd.yOffset

/-- `GHDR(f, index)`: the masked header word, 0 when `index ≥ FONT_LEN_f` (40_glyphstore.md R113). -/
def execGhdr (f : FontNo) (index : Word) (s : State) : Host.Outcome State Fault Refusal :=
  match fontRead (s.cfg.font f) index.toNat with
  | some hw => .next (s.withResult (headerResult (header hw)))
  | none => rejectZero s

end Sys2Proof.Machine
end

