-- ==== Sys2Proof/Machine/Regions.lean ====
section
/-! DEFINITION. `CLEAR`, `INVERT`, `OUTLINE` and `LINEFILL` (43_region.md R150 to R158). None of them writes RESULT
or a flag. -/

namespace Sys2Proof.Machine

/-- The double loop of `CLEAR` and `INVERT`: `access(py, wl, Mask(wl))` for `py in y0 .. y1`, `wl in lo .. hi+1`
(43_region.md R152, R153). -/
def overRegion (access : Nat → Nat → Word → List Word → List Word) (r : Region) (fb : List Word) : List Word :=
  let x0 := r.x0.toNat
  let x1 := r.x1.toNat
  forLoop r.y0.toNat r.y1.toNat
    (fun py => forLoop (maskLo x0) (maskHi x1 + 1) fun wl => access py wl (columnMask x0 x1 wl)) fb

/-- `CLEAR(x0, y0, x1, y1)` (43_region.md R152). -/
def execClear (r : Region) (s : State) : Host.Outcome State Fault Refusal :=
  if regionOk s.cfg r then .next (s.withFb (overRegion (fbOr s.cfg) r s.fb)) else reject s

/-- `INVERT(x0, y0, x1, y1)` (43_region.md R153). -/
def execInvert (r : Region) (s : State) : Host.Outcome State Fault Refusal :=
  if regionOk s.cfg r then .next (s.withFb (overRegion (fbXor s.cfg) r s.fb)) else reject s

/-- Assign every word of line `py` (43_region.md R156, R158: `for wl in 0 .. WPL: FbSet(py, wl, P[wl])`). -/
def setLine (c : Config) (py : Nat) (word : Nat → Word) (fb : List Word) : List Word :=
  forLoop 0 c.wpl (fun wl => fbSet c py wl (word wl)) fb

/-- The operand check of `OUTLINE` (43_region.md R156): "`y0 < y1 and y1 <= LINES and y1 - y0 >= 6`". -/
def outlineOk (c : Config) (y0 y1 : Nat) : Bool :=
  decide (y0 < y1) && decide (y1 ≤ c.lines) && decide (y1 - y0 ≥ outlineMinHeight)

/-- `OUTLINE(y0, y1)` (43_region.md R156). -/
def execOutline (y0 y1 : Coord) (s : State) : Host.Outcome State Fault Refusal :=
  if outlineOk s.cfg y0.toNat y1.toNat then
    .next (s.withFb (forLoop y0.toNat y1.toNat
      (fun py => setLine s.cfg py (patternWord (outlinePattern s.cfg y0.toNat y1.toNat py))) s.fb))
  else reject s

/-- `LINEFILL(y, pat)` (43_region.md R158). A decoded `pat` has exactly WPL words. -/
def execLinefill (y : Coord) (pat : List Word) (s : State) : Host.Outcome State Fault Refusal :=
  if y.toNat < s.cfg.lines then .next (s.withFb (setLine s.cfg y.toNat (fun wl => pat.getD wl 0) s.fb))
  else reject s

end Sys2Proof.Machine
end

