-- ==== Sys2Proof/Machine/XorChar.lean ====
section
/-! DEFINITION. `XORCHAR`, the XOR character draw (41_xorchar.md R120 to R131), and the core it shares with
`DRAWSTR` (42_string.md R140). -/

namespace Sys2Proof.Machine

/-- From the 64-bit `P64`: the row's `w` bits, right-justified, then left-justified in a word (41_xorchar.md R123:
`row = (P64 >> (64 - s - w)) & ((1 << w) - 1)`, `pat = row << (32 - w)`). -/
def justifyRow (p64 s w : Nat) : Word :=
  BitVec.ofNat 32 (((p64 >>> (64 - s - w)) &&& ((1 <<< w) - 1)) <<< (32 - w))

/-- Row extraction: `pat` of row `r` of a glyph with `1 ≤ w ≤ 32` whose header is at `off`; the second word is read
only when `w > pil` (41_xorchar.md R123). None when a read is outside the font's data. -/
def rowPattern (fnt : Font) (off w r : Nat) : Option Word :=
  let b := r * w
  let lw := off + 1 + (b >>> 5)
  let s := b &&& 31
  let pil := 32 - s
  match fontRead fnt lw with
  | none => none
  | some w0 =>
    if w > pil then
      match fontRead fnt (lw + 1) with
      | none => none
      | some w1 => some (justifyRow ((w0.toNat <<< 32) ||| w1.toNat) s w)
    else some (justifyRow (w0.toNat <<< 32) s w)

/-- Destination placement: XOR `pat`, `w` pixels wide, into line `line` with its left edge at column `dx`
(41_xorchar.md R124). -/
def xorRow (c : Config) (line dx w : Nat) (pat : Word) (fb : List Word) : List Word :=
  let dlw := dx >>> 5
  let ds := dx &&& 31
  let pid := 32 - ds
  let d64 := (pat.toNat <<< 32) >>> ds
  let fb1 := fbXor c line dlw (BitVec.ofNat 32 (d64 >>> 32)) fb
  if w > pid then fbXor c line (dlw + 1) (BitVec.ofNat 32 d64) fb1 else fb1

/-- One iteration of the row loop of 41_xorchar.md R125. -/
def drawRow (c : Config) (fnt : Font) (off w dx top r : Nat) (fb : List Word) : Option (List Word) :=
  if w ≥ 1 then
    match rowPattern fnt off w r with
    | some pat => some (xorRow c (top + r) dx w pat fb)
    | none => none
  else some fb

/-- `eff = min(h, y1 ∸ top)`, the number of rows drawn (41_xorchar.md R122). -/
def effectiveHeight (h y1 top : Nat) : Nat := min h (y1 - top)

/-- The draw of an accepted glyph: rows `0 .. eff` from line `top = y + yo`, left edge at `dx = x + 1`
(41_xorchar.md R122, R124, R125). -/
def drawGlyph (c : Config) (fnt : Font) (off : Nat) (hd : Header) (y1 x y : Nat) (fb : List Word) :
    Option (List Word) :=
  let top := y + hd.yOffset.toNat
  forLoopM 0 (effectiveHeight hd.height.toNat y1 top) (drawRow c fnt off hd.width.toNat (x + 1) top) fb

/-- `XorCharCore`: the new frame buffer and the advance (41_xorchar.md R125; 42_string.md R140). The anchor's `x` is
a natural number without limit. The tests come first: an invalid Region, then a glyph wider than 32
(41_xorchar.md R121); a rejected draw leaves FB and advances by 0. -/
def xorCharCore (c : Config) (fnt : Font) (r : Region) (x y : Nat) (cp : CodePoint) (fb : List Word) :
    Option (List Word × Nat) :=
  if regionOk c r then
    match glyphHeader fnt cp with
    | none => none
    | some hd =>
      if hd.width.toNat > maxGlyphWidth then some (fb, 0)
      else
        match drawGlyph c fnt (glyphIndex fnt cp) hd r.y1.toNat x y fb with
        | none => none
        | some fb' => some (fb', hd.width.toNat + advancePad)
  else some (fb, 0)

/-- The end of a drawing command: FB and `RESULT` written, or the refusal of 93_implementation_defined.md U1. -/
def finishDraw (f : FontNo) (s : State) : Option (List Word × Nat) → Host.Outcome State Fault Refusal
  | some (fb, adv) => .next ((s.withFb fb).withResult (BitVec.ofNat 32 adv))
  | none => .refused (.fontReadOutOfRange f)

/-- `XORCHAR(f, x0, y0, x1, y1, x, y, cp)` (41_xorchar.md R125). -/
def execXorchar (f : FontNo) (r : Region) (x y : Coord) (cp : CodePoint) (s : State) :
    Host.Outcome State Fault Refusal :=
  finishDraw f s (xorCharCore s.cfg (s.cfg.font f) r x.toNat y.toNat cp s.fb)

end Sys2Proof.Machine
end

