-- ==== Sys2Proof/Machine/Strings.lean ====
section
/-! DEFINITION. `DRAWSTR` and `STRWIDTH` (42_string.md R140 to R144). -/

namespace Sys2Proof.Machine

/-- The character loop of 42_string.md R140: the frame buffer and the total advance of drawing the characters left
to right from the running anchor `ax`. A rejected character advances by 0 and does not end the loop
(42_string.md R141). -/
def drawChars (c : Config) (fnt : Font) (r : Region) (y : Nat) :
    List CodePoint → Nat → List Word → Option (List Word × Nat)
  | [], _, fb => some (fb, 0)
  | cp :: cps, ax, fb =>
    match xorCharCore c fnt r ax y cp fb with
    | none => none
    | some (fb1, adv) =>
      match drawChars c fnt r y cps (ax + adv) fb1 with
      | none => none
      | some (fb2, total) => some (fb2, adv + total)

/-- `DRAWSTR(f, x0, y0, x1, y1, x, y, s)` (42_string.md R140). -/
def execDrawstr (f : FontNo) (r : Region) (x y : Coord) (str : List CodePoint) (s : State) :
    Host.Outcome State Fault Refusal :=
  finishDraw f s (drawChars s.cfg (s.cfg.font f) r y.toNat str x.toNat s.fb)

/-- `sum over i of (CharWidth(f, c_i) + 3)` (42_string.md R142). -/
def widthSum (fnt : Font) : List CodePoint → Option Nat
  | [] => some 0
  | cp :: cps =>
    match charWidth fnt cp with
    | none => none
    | some w =>
      match widthSum fnt cps with
      | none => none
      | some total => some ((w + advancePad) + total)

/-- `STRWIDTH(f, s)`: the sum less 1; 0 for the empty string (42_string.md R142, R143). -/
def execStrwidth (f : FontNo) (str : List CodePoint) (s : State) : Host.Outcome State Fault Refusal :=
  if str.isEmpty then .next (s.withResult 0)
  else
    match widthSum (s.cfg.font f) str with
    | some total => .next (s.withResult (BitVec.ofNat 32 (total - 1)))
    | none => .refused (.fontReadOutOfRange f)

end Sys2Proof.Machine
end

