-- ==== Sys2Proof/Machine/Dispatch.lean ====
section
/-! DEFINITION. One arm per command (30_encoding.md R84). -/

namespace Sys2Proof.Machine

def exec (i : Instr) (s : State) : Host.Outcome State Fault Refusal :=
  match i with
  | .xorchar f r x y cp => Sys2Proof.Machine.execXorchar f r x y cp s
  | .drawstr f r x y str => Sys2Proof.Machine.execDrawstr f r x y str s
  | .strwidth f str => Sys2Proof.Machine.execStrwidth f str s
  | .clear r => Sys2Proof.Machine.execClear r s
  | .invert r => Sys2Proof.Machine.execInvert r s
  | .outline y0 y1 => Sys2Proof.Machine.execOutline y0 y1 s
  | .linefill y pat => Sys2Proof.Machine.execLinefill y pat s
  | .goff f cp => Sys2Proof.Machine.execGoff f cp s
  | .ghdr f index => Sys2Proof.Machine.execGhdr f index s

end Sys2Proof.Machine
end

