-- ==== Sys2Proof/Machine/Flags.lean ====
section
/-! DEFINITION. The STATUS register (10_state.md R28) and the register reads of the host (10_state.md R26). The
only flag of the engine is `STATUS.ILL` (10_state.md R32); it is set by `illegalCommand` and cleared by reset. -/

namespace Sys2Proof.Machine

/-- `STATUS.BUSY`: "a model in which the host acts only between transitions always reads 0 here"
(10_state.md R28). -/
def statusBusy (_s : State) : Bool := false

/-- `STATUS.PARTIAL`: "1 iff CBUF is not empty" (10_state.md R28). -/
def statusPartial (s : State) : Bool := !s.cbuf.isEmpty

/-- A one-bit field placed at bit `n` of a word. -/
def bitAt (n : Nat) (b : Bool) : Word := if b then BitVec.ofNat 32 (1 <<< n) else 0

/-- The STATUS register: BUSY at bit 0, ILL at bit 1, PARTIAL at bit 2, bits 31:3 read as 0 (10_state.md
R28). -/
def statusWord (s : State) : Word := bitAt 0 (statusBusy s) ||| bitAt 1 s.ill ||| bitAt 2 (statusPartial s)

/-- What a host read of a register returns (10_state.md R26): CMD reads 0. -/
def readReg (s : State) : HostReg → Word
  | .cmd => 0
  | .result => s.result
  | .status => statusWord s

/-- A register's number (10_state.md R26). -/
def HostReg.number : HostReg → Nat
  | .cmd => 0
  | .result => 1
  | .status => 2

/-- A register's bus address, `REG_BASE + 4·n` (10_state.md R26), used by no rule. -/
def regAddress (c : Config) (r : HostReg) : Nat := c.regBase + 4 * r.number

/-- Where FB word `i` sits in the host's address space (20_memory.md R62 `FB_BASE`), used by no rule. A word
is four bytes. -/
def fbAddress (c : Config) (i : Nat) : Nat := c.fbBase + 4 * i

/-- Byte `k` of a word in the host's byte view (20_memory.md R59 `HOST_BYTE_ORDER`), used by no rule. -/
def hostByte (c : Config) (w : Word) (k : Nat) : BitVec 8 :=
  match c.hostByteOrder with
  | .bigEndian => w.extractLsb' (8 * (3 - k)) 8
  | .littleEndian => w.extractLsb' (8 * k) 8

end Sys2Proof.Machine
end

