-- ==== Sys2Proof/Machine/HostPort.lean ====
section
/-! DEFINITION. The command port and the host's other moves (10_state.md R26, R29; 20_memory.md R69;
70_reset_and_hazards.md R200, R201). -/

namespace Sys2Proof.Machine

/-- A complete command, already removed from CBUF: decode it and run it, or discard it as illegal
(10_state.md R29; 30_encoding.md R88, R93). -/
def runCommand (ws : List Word) (s : State) : Host.Outcome State Fault Refusal :=
  match decode s.cfg.wpl ws with
  | .ok i => exec i s
  | .error _ => illegalCommand s

/-- "the length of CBUF reaches `1 + LEN`", LEN from the first word (10_state.md R29). -/
def commandComplete (ws : List Word) : Bool :=
  match ws with
  | [] => false
  | w0 :: ops => decide (ops.length = lenField w0)

/-- A write of the word `v` to CMD (10_state.md R29). -/
def pushCmd (v : Word) (s : State) : Host.Outcome State Fault Refusal :=
  let ws := s.cbuf ++ [v]
  if commandComplete ws then runCommand ws (s.withCbuf []) else .next (s.withCbuf ws)

/-- Reset (10_state.md R35; 70_reset_and_hazards.md R200, R201): RESULT 0, ILL 0, CBUF empty, every FB word a fresh
free value; the parameters are not affected. -/
def applyReset (s : State) : State :=
  ((((s.withResult 0).withIll false).withCbuf []).withFb (s.cfg.freeFb (s.resets + 1))).withResets (s.resets + 1)

/-- One move of the host, and the command it completes, if it completes one. -/
def hostMove (m : HostMove) (s : State) : Host.Outcome State Fault Refusal :=
  match m with
  | .regWrite .cmd v => pushCmd v s
  | .regWrite .result _ => .next s
  | .regWrite .status _ => .next s
  | .regRead r => .next (s.withReadData (readReg s r))
  | .fbWrite i v => if i < s.cfg.fbWords then .next (s.withFb (fbWrite s.fb i v)) else .fault (.noSuchFbWord i)
  | .fbRead i => if i < s.cfg.fbWords then .next (s.withReadData (fbRead s.fb i)) else .fault (.noSuchFbWord i)
  | .reset => .next (applyReset s)

end Sys2Proof.Machine
end

