-- ==== Sys2Proof/Machine/Step.lean ====
section
/-! DEFINITION. One step: the oldest move of the host that is still to come, with the command it completes
(10_state.md R22, R29; 20_memory.md R69). Without one the engine idles: "idleness has no architectural effect"
(60_exceptions.md R192). -/

namespace Sys2Proof.Machine

/-- One step of the machine. -/
def step (s : State) : Host.Outcome State Fault Refusal :=
  match s.input with
  | [] => .next s
  | m :: ms => hostMove m (s.withInput ms)

/-- `s` with that instruction received up to its last word, and the write of its last word to CMD as the host's
next move, so that the very next step runs exactly it. The instruction is numbered as spec/opcode_table.json
numbers it. -/
def State.withFetchWord (s : State) (nbits w : Nat) : State :=
  let ws := tableWords nbits w
  (s.withCbuf ws.dropLast).withInput ((ws.drop (ws.length - 1)).map (HostMove.regWrite .cmd) ++ s.input)

end Sys2Proof.Machine
end

