-- ==== Sys2Proof/Safety.lean ====
section
/-! DEFINITION. What counts as a safe run: the machine's invariant, the well-formedness premise on the fonts
(10_state.md R25) and the host's part of the contract. -/

namespace Sys2Proof.Machine

/-- FB has exactly `WPL·LINES` words (10_state.md R21: "The array is of fixed length"). With FB a list of words
in index order, this is the one canonical form of the memory (log 3). -/
def Memory.wf (c : Config) (fb : List Word) : Bool := decide (fb.length = c.fbWords)

/-- CBUF is empty or holds the first words of a command and waits for the rest (10_state.md R28, R29). -/
def cbufPending (ws : List Word) : Bool :=
  match ws with
  | [] => true
  | w0 :: ops => decide (ops.length < lenField w0)

/-- The machine's invariant: admitted parameters, a frame buffer of the right length, an unfinished command in
CBUF. -/
def State.Inv (s : State) : Prop :=
  s.cfg.ok = true ∧ Memory.wf s.cfg s.fb = true ∧ cbufPending s.cbuf = true

/-- `ceil(w·h / 32)`, the payload words of a glyph (20_memory.md R53). -/
def payloadWords (hd : Header) : Nat := (hd.width.toNat * hd.height.toNat + 31) / 32

/-- WF-FONT clauses 1 and 2 for one character (10_state.md R25): its header word and all its payload words
exist. -/
def glyphReadable (fnt : Font) (cp : CodePoint) : Bool :=
  match glyphHeader fnt cp with
  | none => false
  | some hd => decide (glyphIndex fnt cp + payloadWords hd < fnt.len)

/-- WF-FONT clauses 3 and 4 for one character (10_state.md R25). -/
def glyphFits (fnt : Font) (cp : CodePoint) : Bool :=
  match glyphHeader fnt cp with
  | none => false
  | some hd => decide (hd.yOffset.toNat + hd.height.toNat ≤ fnt.maxHeight) && decide (hd.width.toNat ≤ maxGlyphWidth)

/-- WF-FONT clauses 1 and 2: "premises of every claim" (10_state.md R25). -/
def fontReadable (fnt : Font) : Prop := ∀ cp : CodePoint, glyphReadable fnt cp = true

/-- WF-FONT, all four clauses (10_state.md R25). -/
def fontWellFormed (fnt : Font) : Prop :=
  ∀ cp : CodePoint, glyphReadable fnt cp = true ∧ glyphFits fnt cp = true

/-- What one character puts at pixel (px, py) when it is drawn at the anchor (x, y), said by pixels: the glyph's bit
inside the glyph's rows above the Region's bottom edge, nothing elsewhere and nothing when the draw is rejected
(41_xorchar.md R121, R126). -/
def glyphFlips (c : Config) (fnt : Font) (r : Region) (x y : Nat) (cp : CodePoint) (px py : Nat) : Bool :=
  match glyphHeader fnt cp with
  | none => false
  | some hd =>
    let left := x + 1
    let top := y + hd.yOffset.toNat
    regionOk c r && decide (hd.width.toNat ≤ 32) &&
      decide (left ≤ px ∧ px < left + hd.width.toNat ∧ top ≤ py ∧ py < top + hd.height.toNat ∧ py < r.y1.toNat) &&
      glyphBit fnt (glyphIndex fnt cp) hd.width.toNat (py - top) (px - left)

/-- A character's advance: `w + 3`, or 0 when its draw is rejected (41_xorchar.md R127). -/
def drawnAdvance (c : Config) (fnt : Font) (r : Region) (cp : CodePoint) : Nat :=
  match glyphHeader fnt cp with
  | none => 0
  | some hd => if regionOk c r = true ∧ hd.width.toNat ≤ 32 then hd.width.toNat + 3 else 0

/-- What a string puts at pixel (px, py): each character at the running anchor (42_string.md R140). -/
def stringFlips (c : Config) (fnt : Font) (r : Region) (y : Nat) : List CodePoint → Nat → Nat → Nat → Bool
  | [], _, _, _ => false
  | cp :: cps, ax, px, py =>
    xor (glyphFlips c fnt r ax y cp px py) (stringFlips c fnt r y cps (ax + drawnAdvance c fnt r cp) px py)

/-- The three fonts meet WF-FONT clauses 1 and 2. -/
def fontsReadable (c : Config) : Prop := ∀ f : FontNo, fontReadable (c.font f)

/-- The host accesses only FB words that exist (20_memory.md R55, R69). -/
def hostMoveInRange (c : Config) : HostMove → Bool
  | .regWrite _ _ => true
  | .regRead _ => true
  | .fbWrite i _ => decide (i < c.fbWords)
  | .fbRead i => decide (i < c.fbWords)
  | .reset => true

/-- A state from which no step stops: the fonts are readable and every move to come is in range. -/
def State.Safe (s : State) : Prop :=
  fontsReadable s.cfg ∧ ∀ m ∈ s.input, hostMoveInRange s.cfg m = true

end Sys2Proof.Machine
end

