-- ==== Sys2Proof/Certificates/Slice0/Obligations.lean ====
section
/-! DEFINITION. The statements for the provers, from the numbered rules of spec/. Each `def Obligations.<Name> : Prop`
is listed in OBLIGATIONS.json. -/

open Sys2Proof Sys2Proof.Machine

/-! ### The encoding (30_encoding.md) -/

/-- Decoding the encoding of any well-formed command gives it back, with every operand at every value the encoding
admits, on every admitted number of words per line (30_encoding.md R80 to R84, R93). -/
def Obligations.DecodeEncodeGivesTheCommandBack : Prop :=
  ∀ (wpl : Nat) (i : Instr), wpl ≤ 2047 → i.wellFormed wpl = true → decode wpl (encode i) = .ok i

/-- Whatever the decoder accepts is exactly the encoding of the command it answers, which is well-formed: no reserved
bit is dropped and no two word sequences are one command (30_encoding.md R87, R89, R93). -/
def Obligations.DecodedWordsAreTheEncodingOfTheCommand : Prop :=
  ∀ (wpl : Nat) (ws : List Word) (i : Instr), decode wpl ws = .ok i → i.wellFormed wpl = true ∧ encode i = ws

/-- Words written out from the spec: the example of 30_encoding.md R91, vectors Q1, Q4, G1, O2, L3, L4 and E4 of
95_test_vectors.md; L3 and L4 on the two words per line of its TINY geometry. -/
def Obligations.SampleWordsDecode : Prop :=
  decode 11 [0x10000004, 0x0003002D, 0x00030009, 0x00040002, 0x00000041] = .ok (.xorchar .bold ⟨3, 3, 45, 9⟩ 4 2 0x41) ∧
  decode 11 [0x80000001, 0x0000200B] = .ok (.goff .bold 0x200B) ∧
  decode 11 [0x94000001, 0x00000001] = .ok (.ghdr .regular 1) ∧
  decode 11 [0x40000002, 0x001E0024, 0x00000001] = .ok (.clear ⟨30, 0, 36, 1⟩) ∧
  decode 11 [0x60000001, 0x000A0010] = .ok (.outline 10 16) ∧
  decode 2 [0x70000003, 0x00000000, 0xDEADBEEF, 0x0BADF00D] = .ok (.linefill 0 [0xDEADBEEF, 0x0BADF00D]) ∧
  decode 2 [0x7000000C, 0x00000000, 0xFFFFFFFF, 0xFFFFFFFF, 0xFFFFFFFF, 0xFFFFFFFF, 0xFFFFFFFF, 0xFFFFFFFF, 0xFFFFFFFF,
    0xFFFFFFFF, 0xFFFFFFFF, 0xFFFFFFFF, 0xFFFFFFFF] = .error .length ∧
  decode 11 [0x1C000004, 0x00000150, 0x00000218, 0x00000000, 0x00000041] = .error .font

/-- A complete command is illegal iff one of the six clauses of 30_encoding.md R87 holds, said of the header and operand
words as numbers. -/
def Obligations.IllegalExactlyWhenAClauseOfR87Holds : Prop :=
  ∀ (wpl : Nat) (w0 : Word) (ops : List Word), ops.length = w0.toNat % 2 ^ 16 →
    let op := w0.toNat / 2 ^ 28
    let font := w0.toNat / 2 ^ 26 % 4
    let len := w0.toNat % 2 ^ 16
    ((∃ e, decode wpl (w0 :: ops) = .error e) ↔
      (op = 0 ∨ 10 ≤ op) ∨
      w0.toNat / 2 ^ 16 % 2 ^ 10 ≠ 0 ∨
      ((op = 1 ∨ op = 2 ∨ op = 3 ∨ op = 8 ∨ op = 9) ∧ font = 3 ∨
        (op = 4 ∨ op = 5 ∨ op = 6 ∨ op = 7) ∧ font ≠ 0) ∨
      (op = 1 ∧ len ≠ 4 ∨ op = 2 ∧ len < 3 ∨ (op = 4 ∨ op = 5) ∧ len ≠ 2 ∨ (op = 6 ∨ op = 8 ∨ op = 9) ∧ len ≠ 1 ∨
        op = 7 ∧ len ≠ 1 + wpl) ∨
      (∃ (j : Nat) (v : Word), ops[j]? = some v ∧ 2 ^ 21 ≤ v.toNat ∧
        (op = 1 ∧ j = 3 ∨ op = 2 ∧ 3 ≤ j ∨ op = 3 ∨ op = 8 ∧ j = 0)) ∨
      (op = 7 ∧ ∃ v : Word, ops[0]? = some v ∧ 2 ^ 16 ≤ v.toNat))

/-! ### The command port and the host's other moves (10_state.md, 70_reset_and_hazards.md) -/

/-- A step runs the decoded command: when the host's next move writes the last word of a command that decodes to `i`, the
step is `exec i` on the state with the word taken from the host and CBUF emptied (10_state.md R29). -/
def Obligations.StepRunsTheDecodedCommand : Prop :=
  ∀ (s : State) (v : Word) (ms : List HostMove) (i : Instr),
    s.input = .regWrite .cmd v :: ms → decode s.cfg.wpl (s.cbuf ++ [v]) = .ok i →
      step s = exec i ((s.withInput ms).withCbuf [])

/-- Writing all words of a command to CMD, starting from an empty CBUF, runs that command and nothing else, and leaves
CBUF empty for the next header: framing by LEN (10_state.md R29, 30_encoding.md R80). -/
def Obligations.PushingACommandRunsItOnce : Prop :=
  ∀ (s : State) (ms : List HostMove) (i : Instr),
    s.cfg.wpl ≤ 2047 → i.wellFormed s.cfg.wpl = true → s.cbuf = [] →
      s.input = (encode i).map (HostMove.regWrite .cmd) ++ ms →
        Host.Core.run Sys2Proof.core (encode i).length s = exec i (s.withInput ms)

/-- A CMD write after which the header's words have not all arrived is appended to CBUF and executes nothing (10_state.md
R29, 70_reset_and_hazards.md R211: "While PARTIAL = 1 nothing is executed"). -/
def Obligations.UnfinishedCommandOnlyFillsCbuf : Prop :=
  ∀ (s : State) (v : Word) (ms : List HostMove) (w0 : Word) (ops : List Word),
    s.input = .regWrite .cmd v :: ms → s.cbuf ++ [v] = w0 :: ops → ops.length < w0.toNat % 2 ^ 16 →
      step s = .next ((s.withInput ms).withCbuf (w0 :: ops))

/-- An illegal command: all its words are consumed, FB is unchanged, RESULT is 0, ILL is 1, the next CMD write is a header
again, and ILL is sticky: it is still 1 after any number of further steps without a reset (30_encoding.md R88). -/
def Obligations.IllegalCommandIsConsumedAndFlagged : Prop :=
  ∀ (s : State) (v : Word) (ms : List HostMove) (w0 : Word) (ops : List Word) (e : Illegal),
    s.input = .regWrite .cmd v :: ms → s.cbuf ++ [v] = w0 :: ops → ops.length = w0.toNat % 2 ^ 16 →
      decode s.cfg.wpl (w0 :: ops) = .error e →
        ∃ t, step s = .next t ∧ t = ((((s.withInput ms).withCbuf []).withResult 0).withIll true) ∧
          t.cbuf = [] ∧ t.fb = s.fb ∧ t.result = 0 ∧ t.ill = true ∧
          ∀ (n : Nat) (u : State), (∀ m ∈ ms.take n, m ≠ .reset) → Host.Core.run Sys2Proof.core n t = .next u →
            u.ill = true

/-- A host read of STATUS gives BUSY = 0 at bit 0, ILL at bit 1, PARTIAL (CBUF not empty) at bit 2 and 0 in bits 31:3,
and changes nothing but the data the host is given (10_state.md R28). -/
def Obligations.StatusReadsBusyIllPartial : Prop :=
  ∀ (s : State) (ms : List HostMove), s.input = .regRead .status :: ms →
    ∃ t, step s = .next t ∧ t = (s.withInput ms).withReadData t.readData ∧
      ∀ j, t.readData.getLsbD j = if j = 1 then s.ill else if j = 2 then decide (s.cbuf ≠ []) else false

/-- The register map's accesses: a read of CMD gives 0 and has no effect, a read of RESULT gives RESULT, a write of
RESULT or STATUS is ignored (10_state.md R26). -/
def Obligations.RegisterAccessesFollowTheMap : Prop :=
  ∀ (s : State) (ms : List HostMove) (v : Word),
    (s.input = .regRead .cmd :: ms → step s = .next ((s.withInput ms).withReadData 0)) ∧
    (s.input = .regRead .result :: ms → step s = .next ((s.withInput ms).withReadData s.result)) ∧
    (s.input = .regWrite .result v :: ms → step s = .next (s.withInput ms)) ∧
    (s.input = .regWrite .status v :: ms → step s = .next (s.withInput ms))

/-- The host's accesses to FB between commands: a write makes that word `v` and leaves every other word and everything
else unchanged, a read gives the word and changes nothing (20_memory.md R55, R69). -/
def Obligations.HostFrameBufferAccess : Prop :=
  ∀ (s : State) (ms : List HostMove) (i : Nat) (v : Word), s.Inv → i < s.cfg.wpl * s.cfg.lines →
    (s.input = .fbWrite i v :: ms →
      ∃ t, step s = .next t ∧ t = (s.withInput ms).withFb t.fb ∧ t.fb.length = s.fb.length ∧ fbRead t.fb i = v ∧
        ∀ j, j ≠ i → fbRead t.fb j = fbRead s.fb j) ∧
    (s.input = .fbRead i :: ms → step s = .next ((s.withInput ms).withReadData (fbRead s.fb i)))

/-- A host access to an FB word that does not exist stops with that fault (20_memory.md R55; the fault is the model's,
log 8). -/
def Obligations.HostAccessOutsideFbFaults : Prop :=
  ∀ (s : State) (ms : List HostMove) (i : Nat) (v : Word), s.cfg.wpl * s.cfg.lines ≤ i →
    (s.input = .fbWrite i v :: ms ∨ s.input = .fbRead i :: ms) → step s = .fault (.noSuchFbWord i)

/-- Reset at any moment, a command partly received or not: RESULT 0, ILL 0, CBUF empty, STATUS 0, the parameters not
affected, FB of the same length (its content is a free value) (10_state.md R35, 70_reset_and_hazards.md R200, R201). -/
def Obligations.ResetMoveLeavesTheResetValues : Prop :=
  ∀ (s : State) (ms : List HostMove), s.input = .reset :: ms →
    ∃ t, step s = .next t ∧ t.result = 0 ∧ t.ill = false ∧ t.cbuf = [] ∧ readReg t .status = 0 ∧ t.cfg = s.cfg ∧
      t.fb.length = s.cfg.wpl * s.cfg.lines ∧ t.input = ms

/-- The state after reset holds the values of 10_state.md R35 on the geometry of 00_scope.md R5. -/
def Obligations.ResetStateHoldsTheResetValues : Prop :=
  State.reset.result = 0 ∧ State.reset.ill = false ∧ State.reset.cbuf = [] ∧ readReg State.reset .status = 0 ∧
    State.reset.fb.length = 5896 ∧ State.reset.cfg.wpl = 11 ∧ State.reset.cfg.lines = 536 ∧
    State.reset.cfg.lineWidth = 336

/-- Without a host move the engine idles and nothing changes (60_exceptions.md R192; the idle step is the model's,
log 5). -/
def Obligations.IdleStepChangesNothing : Prop :=
  ∀ s : State, s.input = [] → step s = .next s

/-! ### Whole-machine rules -/

/-- The state after reset meets the invariant. -/
def Obligations.ResetMeetsTheInvariant : Prop := State.reset.Inv

/-- Every step keeps the invariant: admitted parameters, a frame buffer of exactly WPL·LINES words ("the core never
allocates or resizes it", 10_state.md R21), CBUF empty or an unfinished command (10_state.md R29). -/
def Obligations.StepKeepsTheInvariant : Prop :=
  ∀ s t : State, s.Inv → step s = .next t → t.Inv

/-- No step changes the geometry or a font: "Fonts are read-only", "compiled-in, never mutated" (10_state.md R20,
R23). -/
def Obligations.NoStepChangesTheParameters : Prop :=
  ∀ s t : State, step s = .next t → t.cfg = s.cfg

/-- With fonts that meet WF-FONT clauses 1 and 2 and a host that accesses FB words that exist, every step answers a next
state, from which the same holds: the engine "never panics", it has no trap and no fault (10_state.md R25,
60_exceptions.md R180, R185). -/
def Obligations.SafeStepsAlwaysComplete : Prop :=
  ∀ s : State, s.Safe → ∃ t, step s = .next t ∧ t.Safe

/-- What a command can change: FB and RESULT, and nothing else; the queries and STRWIDTH not FB, the region commands not
RESULT (10_state.md R27, R32; 41_xorchar.md R120; 42_string.md R140, R142; 43_region.md). -/
def Obligations.CommandsChangeOnlyFbAndResult : Prop :=
  ∀ (i : Instr) (s t : State), exec i s = .next t →
    t = (s.withFb t.fb).withResult t.result ∧
    (match i with
      | .xorchar _ _ _ _ _ => True
      | .drawstr _ _ _ _ _ => True
      | .strwidth _ _ => t.fb = s.fb
      | .clear _ => t.result = s.result
      | .invert _ => t.result = s.result
      | .outline _ _ => t.result = s.result
      | .linefill _ _ => t.result = s.result
      | .goff _ _ => t.fb = s.fb
      | .ghdr _ _ => t.fb = s.fb)

/-- ILL changes only by a complete illegal command, which sets it, or by reset, which clears it (10_state.md R28, R32;
60_exceptions.md R182; 70_reset_and_hazards.md R212). -/
def Obligations.OnlyIllegalCommandsAndResetChangeIll : Prop :=
  ∀ s t : State, step s = .next t → t.ill ≠ s.ill →
    (t.ill = true ∧ ∃ v ms w0 ops e, s.input = .regWrite .cmd v :: ms ∧ s.cbuf ++ [v] = w0 :: ops ∧
      ops.length = w0.toNat % 2 ^ 16 ∧ decode s.cfg.wpl (w0 :: ops) = .error e) ∨
    (t.ill = false ∧ ∃ ms, s.input = .reset :: ms)

/-- No command branches on frame-buffer content: on any other frame buffer the command completes as well and leaves the
same RESULT; and what it makes of a bit depends on that bit alone: on two frame buffers of one length, every bit that is
the same in both before is the same in both after, whatever the other bits are (10_state.md R31). -/
def Obligations.NoCommandBranchesOnFbContent : Prop :=
  ∀ (i : Instr) (s t : State) (fb : List Word), exec i s = .next t →
    ∃ u, exec i (s.withFb fb) = .next u ∧ u.result = t.result ∧
      (fb.length = s.fb.length → u.fb.length = t.fb.length ∧
        ∀ k j, (fbRead fb k).getLsbD j = (fbRead s.fb k).getLsbD j →
          (fbRead u.fb k).getLsbD j = (fbRead t.fb k).getLsbD j)

/-- No command reads RESULT, ILL or CBUF: with other values there it does the same to FB, and leaves the same RESULT if it
writes RESULT (10_state.md R27, R30, R32). -/
def Obligations.CommandsReadNoHostRegister : Prop :=
  ∀ (i : Instr) (s t : State) (v : Word) (b : Bool) (ws : List Word), exec i s = .next t →
    ∃ u, exec i (((s.withResult v).withIll b).withCbuf ws) = .next u ∧ u.fb = t.fb ∧ u.ill = b ∧ u.cbuf = ws ∧
      (u.result = t.result ∨ u.result = v ∧ t.result = s.result)

/-! ### GOFF, GHDR and the glyph functions (40_glyphstore.md) -/

/-- `Header(hw)`: the document's 32-bit shift formula, equal to the three slices; bits 31:24 have no influence; the
worked example (40_glyphstore.md R110). -/
def Obligations.HeaderUnpacksTheThreeFields : Prop :=
  (∀ hw : Word,
    (header hw).width.toNat = ((hw.toNat <<< 8) &&& 0xFFFFFFFF) >>> 24 ∧
    (header hw).height.toNat = ((hw.toNat <<< 16) &&& 0xFFFFFFFF) >>> 24 ∧
    (header hw).yOffset.toNat = ((hw.toNat <<< 24) &&& 0xFFFFFFFF) >>> 24 ∧
    (header hw).width.toNat = hw.toNat / 2 ^ 16 % 256 ∧
    (header hw).height.toNat = hw.toNat / 2 ^ 8 % 256 ∧
    (header hw).yOffset.toNat = hw.toNat % 256) ∧
  (∀ a b : Word, a.toNat % 2 ^ 24 = b.toNat % 2 ^ 24 → header a = header b) ∧
  header 0x00121008 = ⟨18, 16, 8⟩

/-- `GOFF`: RESULT is the table entry of the first range that holds the character, REPL when none does; nothing else
changes; the rule's example, words and result (40_glyphstore.md R111, R112). -/
def Obligations.GoffReturnsTheFirstMatch : Prop :=
  (∀ (f : FontNo) (cp : CodePoint) (s : State),
    ((∀ g ∈ (s.cfg.font f).ranges, ¬ (g.lo ≤ cp.toNat ∧ cp.toNat < g.lo + g.table.length)) →
      exec (.goff f cp) s = .next (s.withResult (s.cfg.font f).repl)) ∧
    (∀ pre g post e, (s.cfg.font f).ranges = pre ++ g :: post →
      (∀ g' ∈ pre, ¬ (g'.lo ≤ cp.toNat ∧ cp.toNat < g'.lo + g'.table.length)) →
      g.lo ≤ cp.toNat → g.table[cp.toNat - g.lo]? = some e →
        exec (.goff f cp) s = .next (s.withResult e))) ∧
  (∀ s : State, s.cfg.bold = testFont0 →
    decode s.cfg.wpl [0x80000001, 0x00000040] = .ok (.goff .bold 0x40) ∧
    exec (.goff .bold 0x40) s = .next (s.withResult 5))

/-- `GHDR`: 0 when the index is outside the array, else the header word with bits 31:24 zero, which is
`(w << 16) | (h << 8) | yo`, whether or not a glyph starts there; nothing else changes; the rule's example, words and
result (40_glyphstore.md R113). -/
def Obligations.GhdrReturnsTheMaskedHeader : Prop :=
  (∀ (f : FontNo) (index : Word) (s : State),
    ((s.cfg.font f).data.length ≤ index.toNat → exec (.ghdr f index) s = .next (s.withResult 0)) ∧
    (∀ hw, (s.cfg.font f).data[index.toNat]? = some hw →
      exec (.ghdr f index) s = .next (s.withResult (hw &&& 0x00FFFFFF)) ∧
      (hw &&& 0x00FFFFFF).toNat =
        ((header hw).width.toNat <<< 16) ||| ((header hw).height.toNat <<< 8) ||| (header hw).yOffset.toNat)) ∧
  (∀ s : State, s.cfg.bold = testFont0 →
    decode s.cfg.wpl [0x90000001, 0x00000005] = .ok (.ghdr .bold 5) ∧
    exec (.ghdr .bold 5) s = .next (s.withResult 0x00121008))

/-! ### XORCHAR (41_xorchar.md) -/

/-- The rejections of `XORCHAR`: a Region that violates the invariant, or a glyph wider than 32; FB unchanged, RESULT 0,
no flag (41_xorchar.md R121). -/
def Obligations.XorcharRejectsBadRegionAndWideGlyph : Prop :=
  ∀ (f : FontNo) (r : Region) (x y : Coord) (cp : CodePoint) (s : State),
    (r.x1.toNat > s.cfg.lineWidth ∨ r.y1.toNat > s.cfg.lines ∨ r.x0.toNat ≥ r.x1.toNat ∨ r.y0.toNat ≥ r.y1.toNat →
      exec (.xorchar f r x y cp) s = .next (s.withResult 0)) ∧
    (∀ hd, glyphHeader (s.cfg.font f) cp = some hd → hd.width.toNat > 32 →
      exec (.xorchar f r x y cp) s = .next (s.withResult 0))

/-- An accepted `XORCHAR` completes, returns `w + 3` whatever was clipped, changes nothing but FB and RESULT, and RESULT
is 0 exactly when the draw was rejected (41_xorchar.md R127). -/
def Obligations.XorcharReturnsTheAdvance : Prop :=
  ∀ (f : FontNo) (r : Region) (x y : Coord) (cp : CodePoint) (s : State) (hd : Header),
    glyphReadable (s.cfg.font f) cp = true → glyphHeader (s.cfg.font f) cp = some hd →
      ∃ t, exec (.xorchar f r x y cp) s = .next t ∧ t = (s.withFb t.fb).withResult t.result ∧
        (regionOk s.cfg r = true ∧ hd.width.toNat ≤ 32 →
          t.result.toNat = hd.width.toNat + 3 ∧ 3 ≤ t.result.toNat ∧ t.result.toNat ≤ 35) ∧
        (t.result = 0 ↔ ¬ (regionOk s.cfg r = true ∧ hd.width.toNat ≤ 32))

/-- The pixel-level statement of `XORCHAR`: exactly the pixels of the glyph's rows above the Region's bottom edge and of
its columns within the line's storage are XORed with the glyph's bits, every other bit of FB is unchanged
(41_xorchar.md R126). -/
def Obligations.XorcharFlipsExactlyTheGlyphPixels : Prop :=
  ∀ (f : FontNo) (r : Region) (x y : Coord) (cp : CodePoint) (s : State) (hd : Header),
    s.Inv → glyphReadable (s.cfg.font f) cp = true → glyphHeader (s.cfg.font f) cp = some hd →
    regionOk s.cfg r = true → hd.width.toNat ≤ 32 →
      ∃ t, exec (.xorchar f r x y cp) s = .next t ∧ t.fb.length = s.fb.length ∧
        ∀ px py, px < 32 * s.cfg.wpl → py < s.cfg.lines →
          let left := x.toNat + 1
          let top := y.toNat + hd.yOffset.toNat
          pixel s.cfg t.fb px py =
            if left ≤ px ∧ px < left + hd.width.toNat ∧ top ≤ py ∧ py < top + hd.height.toNat ∧ py < r.y1.toNat then
              xor (pixel s.cfg s.fb px py)
                (glyphBit (s.cfg.font f) (glyphIndex (s.cfg.font f) cp) hd.width.toNat (py - top) (px - left))
            else pixel s.cfg s.fb px py

/-- The self-cancelling law for all operands, valid or not, and commutation: a second identical draw restores FB and
returns the same RESULT; two draws may be exchanged (41_xorchar.md R129). -/
def Obligations.XorcharTwiceRestoresAndDrawsCommute : Prop :=
  (∀ (f : FontNo) (r : Region) (x y : Coord) (cp : CodePoint) (s t : State),
    exec (.xorchar f r x y cp) s = .next t →
      ∃ u, exec (.xorchar f r x y cp) t = .next u ∧ u.fb = s.fb ∧ u.result = t.result) ∧
  (∀ (f f' : FontNo) (r r' : Region) (x y x' y' : Coord) (cp cp' : CodePoint) (s a ab : State),
    exec (.xorchar f r x y cp) s = .next a → exec (.xorchar f' r' x' y' cp') a = .next ab →
      ∃ b ba, exec (.xorchar f' r' x' y' cp') s = .next b ∧ exec (.xorchar f r x y cp) b = .next ba ∧
        ba.fb = ab.fb)

/-- Containment under the caller contract: every changed pixel lies in the Region, no padding bit changes, and no write is
suppressed: for every row that is drawn and every column of the glyph, the write guard admits the word the column lies in,
and the pixel there is XORed with the glyph's bit (41_xorchar.md R130). -/
def Obligations.XorcharStaysInTheRegionUnderTheContract : Prop :=
  ∀ (f : FontNo) (r : Region) (x y : Coord) (cp : CodePoint) (s : State) (hd : Header),
    s.Inv → glyphReadable (s.cfg.font f) cp = true → glyphHeader (s.cfg.font f) cp = some hd →
    regionOk s.cfg r = true → hd.width.toNat ≤ 32 →
    r.x0.toNat ≤ x.toNat + 1 → x.toNat + 1 + hd.width.toNat ≤ r.x1.toNat → r.y0.toNat ≤ y.toNat + hd.yOffset.toNat →
      let top := y.toNat + hd.yOffset.toNat
      ∃ t, exec (.xorchar f r x y cp) s = .next t ∧
        (∀ px py, px < 32 * s.cfg.wpl → py < s.cfg.lines → pixel s.cfg t.fb px py ≠ pixel s.cfg s.fb px py →
          r.x0.toNat ≤ px ∧ px < r.x1.toNat ∧ r.y0.toNat ≤ py ∧ py < r.y1.toNat ∧ px < s.cfg.lineWidth) ∧
        (∀ row k, row < effectiveHeight hd.height.toNat r.y1.toNat top → k < hd.width.toNat →
          fbGuard s.cfg (top + row) ((x.toNat + 1 + k) / 32) = true ∧
          pixel s.cfg t.fb (x.toNat + 1 + k) (top + row) =
            xor (pixel s.cfg s.fb (x.toNat + 1 + k) (top + row))
              (glyphBit (s.cfg.font f) (glyphIndex (s.cfg.font f) cp) hd.width.toNat row k))

/-- Row extraction gives the glyph's row: under WF-FONT clauses 1 and 2 both reads are in range, and pixel `j` of the
pattern is `GlyphBit(f, off, r, j)` for `j < w` and 0 from there on (41_xorchar.md R123). -/
def Obligations.RowPatternIsTheGlyphRow : Prop :=
  ∀ (fnt : Font) (cp : CodePoint) (hd : Header) (row : Nat),
    glyphReadable fnt cp = true → glyphHeader fnt cp = some hd → 1 ≤ hd.width.toNat → hd.width.toNat ≤ 32 →
    row < hd.height.toNat →
      ∃ pat, rowPattern fnt (glyphIndex fnt cp) hd.width.toNat row = some pat ∧
        ∀ j, j < 32 → wordPixel pat j =
          (decide (j < hd.width.toNat) && glyphBit fnt (glyphIndex fnt cp) hd.width.toNat row j)

/-- `XORCHAR` is refused exactly when it reads the font outside its data: the header word, or the last payload word of
the rows it draws (93_implementation_defined.md U1; 20_memory.md R58; the refusal is log 7). -/
def Obligations.XorcharRefusedExactlyWhenAFontReadIsOutOfRange : Prop :=
  ∀ (f : FontNo) (r : Region) (x y : Coord) (cp : CodePoint) (s : State),
    exec (.xorchar f r x y cp) s = .refused (.fontReadOutOfRange f) ↔
      regionOk s.cfg r = true ∧
        (glyphHeader (s.cfg.font f) cp = none ∨
          ∃ hd, glyphHeader (s.cfg.font f) cp = some hd ∧ hd.width.toNat ≤ 32 ∧ 1 ≤ hd.width.toNat ∧
            let rows := min hd.height.toNat (r.y1.toNat - (y.toNat + hd.yOffset.toNat))
            1 ≤ rows ∧
            (s.cfg.font f).data.length ≤ glyphIndex (s.cfg.font f) cp + 1 + (rows * hd.width.toNat - 1) / 32)

/-! ### DRAWSTR and STRWIDTH (42_string.md) -/

/-- `STRWIDTH`: for a non-empty string the sum of (width + 3), less 1, from 2 to 16 908 029; 0 for the empty string;
nothing but RESULT changes (42_string.md R142, R143). -/
def Obligations.StrwidthSumsWidthsPlusThreeLessOne : Prop :=
  ∀ (f : FontNo) (str : List CodePoint) (s : State) (width : CodePoint → Nat),
    str.length ≤ 65535 → (∀ cp ∈ str, charWidth (s.cfg.font f) cp = some (width cp)) →
      ∃ t, exec (.strwidth f str) s = .next t ∧ t = s.withResult t.result ∧
        (str = [] → t.result = 0) ∧
        (str ≠ [] → t.result.toNat + 1 = (str.map fun cp => width cp + 3).sum ∧
          2 ≤ t.result.toNat ∧ t.result.toNat ≤ 16908029)

/-- `DRAWSTR` completes; RESULT is the sum of the advances of its characters, `w + 3` for an accepted one and 0 for a
rejected one; nothing but FB and RESULT changes (42_string.md R140, R141). -/
def Obligations.DrawstrReturnsTheSumOfTheAdvances : Prop :=
  ∀ (f : FontNo) (r : Region) (x y : Coord) (str : List CodePoint) (s : State) (width : CodePoint → Nat),
    str.length ≤ 65532 →
    (∀ cp ∈ str, glyphReadable (s.cfg.font f) cp = true ∧ charWidth (s.cfg.font f) cp = some (width cp)) →
      ∃ t, exec (.drawstr f r x y str) s = .next t ∧ t = (s.withFb t.fb).withResult t.result ∧
        t.fb.length = s.fb.length ∧
        t.result.toNat =
          (str.map fun cp => if regionOk s.cfg r = true ∧ width cp ≤ 32 then width cp + 3 else 0).sum

/-- `DRAWSTR` draws its first character as `XORCHAR` does, at the same anchor, and the rest as `DRAWSTR` does from the
anchor advanced by the first character's RESULT (42_string.md R140). -/
def Obligations.DrawstrIsXorcharThenTheRest : Prop :=
  ∀ (f : FontNo) (r : Region) (x x' y : Coord) (cp : CodePoint) (str : List CodePoint) (s t u : State),
    exec (.xorchar f r x y cp) s = .next t → x'.toNat = x.toNat + t.result.toNat →
    exec (.drawstr f r x' y str) t = .next u →
      exec (.drawstr f r x y (cp :: str)) s = .next (u.withResult (t.result + u.result))

/-- The pixel-level statement of `DRAWSTR`, on anchors without limit: every pixel of FB is XORed with what the characters'
glyphs put there, each drawn at the running anchor (x plus the advances of its predecessors) and accepted or rejected on
its own (42_string.md R140, R141; 41_xorchar.md R126). -/
def Obligations.DrawstrFlipsTheGlyphPixelsOfEachCharacter : Prop :=
  ∀ (f : FontNo) (r : Region) (x y : Coord) (str : List CodePoint) (s : State),
    s.Inv → (∀ cp ∈ str, glyphReadable (s.cfg.font f) cp = true) →
      ∃ t, exec (.drawstr f r x y str) s = .next t ∧ t.fb.length = s.fb.length ∧
        ∀ px py, px < 32 * s.cfg.wpl → py < s.cfg.lines →
          pixel s.cfg t.fb px py =
            xor (pixel s.cfg s.fb px py) (stringFlips s.cfg (s.cfg.font f) r y.toNat str x.toNat px py)

/-- The columns a string changes: every pixel that `DRAWSTR` changes lies in columns `x + 1 .. x + RESULT − 3`, at or below
the anchor's line and above the Region's bottom edge (42_string.md R140; 41_xorchar.md R122, R126). -/
def Obligations.DrawstrChangesOnlyColumnsOfItsString : Prop :=
  ∀ (f : FontNo) (r : Region) (x y : Coord) (str : List CodePoint) (s t : State),
    s.Inv → str.length ≤ 65532 → exec (.drawstr f r x y str) s = .next t →
      ∀ px py, px < 32 * s.cfg.wpl → py < s.cfg.lines → pixel s.cfg t.fb px py ≠ pixel s.cfg s.fb px py →
        x.toNat + 1 ≤ px ∧ px + 3 ≤ x.toNat + t.result.toNat ∧ y.toNat ≤ py ∧ py < r.y1.toNat

/-- The relation of the two string commands: with a valid Region and a non-empty string of glyphs of width at most 32,
`DRAWSTR` gives `STRWIDTH + 1` and changes pixels only in columns `x + 1 .. x + STRWIDTH − 2`; with a wider glyph the two
differ (42_string.md R144). -/
def Obligations.DrawstrResultIsStrwidthPlusOne : Prop :=
  ∀ (f : FontNo) (r : Region) (x y : Coord) (str : List CodePoint) (s : State) (width : CodePoint → Nat),
    s.Inv → regionOk s.cfg r = true → str ≠ [] → str.length ≤ 65532 →
    (∀ cp ∈ str, glyphReadable (s.cfg.font f) cp = true ∧ charWidth (s.cfg.font f) cp = some (width cp)) →
      ∃ t u, exec (.drawstr f r x y str) s = .next t ∧ exec (.strwidth f str) s = .next u ∧
        ((∀ cp ∈ str, width cp ≤ 32) →
          t.result.toNat = u.result.toNat + 1 ∧
          ∀ px py, px < 32 * s.cfg.wpl → py < s.cfg.lines → pixel s.cfg t.fb px py ≠ pixel s.cfg s.fb px py →
            x.toNat + 1 ≤ px ∧ px + 2 ≤ x.toNat + u.result.toNat) ∧
        ((∃ cp ∈ str, width cp > 32) → t.result.toNat ≠ u.result.toNat + 1)

/-- `DRAWSTR` on a Region that violates the invariant, and of the empty string: FB unchanged, RESULT 0 (42_string.md
R141 items 2 and 4). -/
def Obligations.DrawstrOfNothingChangesOnlyResult : Prop :=
  ∀ (f : FontNo) (r : Region) (x y : Coord) (str : List CodePoint) (s : State),
    (regionOk s.cfg r = false ∨ str = []) → exec (.drawstr f r x y str) s = .next (s.withResult 0)

/-- A character wider than 32 draws nothing, advances by 0 and does not end the string: the string without it does the
same (42_string.md R141 item 3). -/
def Obligations.DrawstrPassesOverAnOversizedCharacter : Prop :=
  ∀ (f : FontNo) (r : Region) (x y : Coord) (pre post : List CodePoint) (cp : CodePoint) (hd : Header) (s : State),
    glyphHeader (s.cfg.font f) cp = some hd → hd.width.toNat > 32 →
      exec (.drawstr f r x y (pre ++ cp :: post)) s = exec (.drawstr f r x y (pre ++ post)) s

/-- `STRWIDTH` and `DRAWSTR` are refused when they read a header outside the font's data (93_implementation_defined.md U1;
the refusal is log 7). -/
def Obligations.StringCommandsRefuseAMissingHeader : Prop :=
  ∀ (f : FontNo) (r : Region) (x y : Coord) (pre post : List CodePoint) (cp : CodePoint) (s : State),
    glyphHeader (s.cfg.font f) cp = none →
      exec (.strwidth f (pre ++ cp :: post)) s = .refused (.fontReadOutOfRange f) ∧
      (regionOk s.cfg r = true → exec (.drawstr f r x y (pre ++ cp :: post)) s = .refused (.fontReadOutOfRange f))

/-! ### CLEAR, INVERT, OUTLINE, LINEFILL (43_region.md) -/

/-- Malformed bounds are silently ignored by the four region commands: FB, RESULT and STATUS all unchanged (43_region.md
R150, R156, R158; 60_exceptions.md R181 J2, J4, J5). -/
def Obligations.RegionCommandsIgnoreMalformedBounds : Prop :=
  ∀ (r : Region) (y0 y1 y : Coord) (pat : List Word) (s : State),
    (r.x1.toNat > s.cfg.lineWidth ∨ r.y1.toNat > s.cfg.lines ∨ r.x0.toNat ≥ r.x1.toNat ∨ r.y0.toNat ≥ r.y1.toNat →
      exec (.clear r) s = .next s ∧ exec (.invert r) s = .next s) ∧
    (y0.toNat ≥ y1.toNat ∨ y1.toNat > s.cfg.lines ∨ y1.toNat - y0.toNat < 6 → exec (.outline y0 y1) s = .next s) ∧
    (y.toNat ≥ s.cfg.lines → exec (.linefill y pat) s = .next s)

/-- The column masks: `lo ≤ hi < WPL`, and bit `31 − j` of `Mask(wl)` is 1 iff `x0 ≤ 32·wl + j < x1`, so no mask covers a
padding bit (43_region.md R151). -/
def Obligations.ColumnMaskCoversExactlyTheRegionColumns : Prop :=
  ∀ (c : Config) (x0 x1 : Nat), x0 < x1 → x1 ≤ c.lineWidth → c.lineWidth ≤ 32 * c.wpl →
    maskLo x0 ≤ maskHi x1 ∧ maskHi x1 < c.wpl ∧
    ∀ wl j, maskLo x0 ≤ wl → wl ≤ maskHi x1 → j < 32 →
      wordPixel (columnMask x0 x1 wl) j = decide (x0 ≤ 32 * wl + j ∧ 32 * wl + j < x1)

/-- `CLEAR` with a valid Region: every pixel of the Region is 1, every other bit of FB, the padding bits among them, is
unchanged, and nothing but FB changes (43_region.md R152). -/
def Obligations.ClearSetsExactlyTheRegion : Prop :=
  ∀ (r : Region) (s : State), s.Inv → regionOk s.cfg r = true →
    ∃ t, exec (.clear r) s = .next t ∧ t = s.withFb t.fb ∧ t.fb.length = s.fb.length ∧
      ∀ px py, px < 32 * s.cfg.wpl → py < s.cfg.lines →
        pixel s.cfg t.fb px py =
          if r.x0.toNat ≤ px ∧ px < r.x1.toNat ∧ r.y0.toNat ≤ py ∧ py < r.y1.toNat then true
          else pixel s.cfg s.fb px py

/-- `INVERT` with a valid Region: every pixel of the Region is flipped, every other bit of FB is unchanged, and nothing
but FB changes (43_region.md R153). -/
def Obligations.InvertFlipsExactlyTheRegion : Prop :=
  ∀ (r : Region) (s : State), s.Inv → regionOk s.cfg r = true →
    ∃ t, exec (.invert r) s = .next t ∧ t = s.withFb t.fb ∧ t.fb.length = s.fb.length ∧
      ∀ px py, px < 32 * s.cfg.wpl → py < s.cfg.lines →
        pixel s.cfg t.fb px py =
          if r.x0.toNat ≤ px ∧ px < r.x1.toNat ∧ r.y0.toNat ≤ py ∧ py < r.y1.toNat then !(pixel s.cfg s.fb px py)
          else pixel s.cfg s.fb px py

/-- `CLEAR R; INVERT R`: with a valid Region every pixel of R is 0 and every bit outside R as before; with an invalid one
both are no-ops (43_region.md R154). -/
def Obligations.ClearThenInvertBlackensTheRegion : Prop :=
  ∀ (r : Region) (s : State), s.Inv →
    ∃ t u, exec (.clear r) s = .next t ∧ exec (.invert r) t = .next u ∧
      (regionOk s.cfg r = true →
        ∀ px py, px < 32 * s.cfg.wpl → py < s.cfg.lines →
          pixel s.cfg u.fb px py =
            if r.x0.toNat ≤ px ∧ px < r.x1.toNat ∧ r.y0.toNat ≤ py ∧ py < r.y1.toNat then false
            else pixel s.cfg s.fb px py) ∧
      (regionOk s.cfg r = false → t = s ∧ u = s)

/-- `INVERT` twice restores FB, and `INVERT` commutes with `XORCHAR` (43_region.md R153). -/
def Obligations.InvertTwiceRestoresAndCommutesWithXorchar : Prop :=
  (∀ (r : Region) (s : State), ∃ t u, exec (.invert r) s = .next t ∧ exec (.invert r) t = .next u ∧ u = s) ∧
  (∀ (r r' : Region) (f : FontNo) (x y : Coord) (cp : CodePoint) (s a ab : State),
    exec (.xorchar f r x y cp) s = .next a → exec (.invert r') a = .next ab →
      ∃ b ba, exec (.invert r') s = .next b ∧ exec (.xorchar f r x y cp) b = .next ba ∧ ba.fb = ab.fb)

/-- `OUTLINE` with valid operands: lines y0, y0+1, y1−2, y1−1 all 1; lines y0+2 and y1−3 black at columns
2 .. LINE_WIDTH−3; the lines between black at columns 2 and LINE_WIDTH−3 alone; padding bits 1; nothing outside those
lines changes, and nothing but FB (43_region.md R155, R156). -/
def Obligations.OutlineWritesTheBox : Prop :=
  ∀ (y0 y1 : Coord) (s : State), s.Inv → y0.toNat < y1.toNat → y1.toNat ≤ s.cfg.lines → 6 ≤ y1.toNat - y0.toNat →
    ∃ t, exec (.outline y0 y1) s = .next t ∧ t = s.withFb t.fb ∧ t.fb.length = s.fb.length ∧
      ∀ px py, px < 32 * s.cfg.wpl → py < s.cfg.lines →
        pixel s.cfg t.fb px py =
          if py < y0.toNat ∨ y1.toNat ≤ py then pixel s.cfg s.fb px py
          else if py < y0.toNat + 2 ∨ y1.toNat ≤ py + 2 then true
          else if py = y0.toNat + 2 ∨ py + 3 = y1.toNat then decide (px < 2 ∨ s.cfg.lineWidth < px + 3)
          else decide (px ≠ 2 ∧ px + 3 ≠ s.cfg.lineWidth)

/-- The three scanline patterns of the reference device, word for word (43_region.md R155). -/
def Obligations.ScanlinePatternsOfTheReferenceDevice : Prop :=
  (List.range 11).map (patternWord (clearLine Config.reference)) = List.replicate 11 0xFFFFFFFF ∧
  (List.range 11).map (patternWord (solidLine Config.reference)) =
    [0xC0000000] ++ List.replicate 9 0x00000000 ++ [0x0003FFFF] ∧
  (List.range 11).map (patternWord (borderLine Config.reference)) =
    [0xDFFFFFFF] ++ List.replicate 9 0xFFFFFFFF ++ [0xFFFBFFFF]

/-- `LINEFILL` on an existing line: its WPL words are the pattern's, verbatim, padding bits included; every other word of
FB is unchanged, and nothing but FB changes (43_region.md R158). -/
def Obligations.LinefillWritesTheLineVerbatim : Prop :=
  ∀ (y : Coord) (pat : List Word) (s : State), s.Inv → pat.length = s.cfg.wpl → y.toNat < s.cfg.lines →
    ∃ t, exec (.linefill y pat) s = .next t ∧ t = s.withFb t.fb ∧ t.fb.length = s.fb.length ∧
      (∀ wl v, pat[wl]? = some v → fbRead t.fb (y.toNat * s.cfg.wpl + wl) = v) ∧
      (∀ i, i < y.toNat * s.cfg.wpl ∨ (y.toNat + 1) * s.cfg.wpl ≤ i → fbRead t.fb i = fbRead s.fb i)
end

