-- ==== Sys2Proof/Laws/State.lean ====
section
/-! SUPPORT. One lemma per field per named update of State, true by `rfl`, so that no proof unfolds a record
update; the FB length after reset. -/

namespace Sys2Proof.Machine

/-! ### withFb -/

@[simp] theorem State.withFb_cfg (s : State) (v : List Word) : (s.withFb v).cfg = s.cfg := rfl
@[simp] theorem State.withFb_fb (s : State) (v : List Word) : (s.withFb v).fb = v := rfl
@[simp] theorem State.withFb_result (s : State) (v : List Word) : (s.withFb v).result = s.result := rfl
@[simp] theorem State.withFb_ill (s : State) (v : List Word) : (s.withFb v).ill = s.ill := rfl
@[simp] theorem State.withFb_cbuf (s : State) (v : List Word) : (s.withFb v).cbuf = s.cbuf := rfl
@[simp] theorem State.withFb_input (s : State) (v : List Word) : (s.withFb v).input = s.input := rfl
@[simp] theorem State.withFb_readData (s : State) (v : List Word) : (s.withFb v).readData = s.readData := rfl
@[simp] theorem State.withFb_resets (s : State) (v : List Word) : (s.withFb v).resets = s.resets := rfl

@[simp] theorem State.withFb_withFb (s : State) (v v2 : List Word) : (s.withFb v).withFb v2 = s.withFb v2 := rfl

@[simp] theorem State.withFb_self (s : State) : s.withFb s.fb = s := rfl

/-! ### withResult -/

@[simp] theorem State.withResult_cfg (s : State) (v : Word) : (s.withResult v).cfg = s.cfg := rfl
@[simp] theorem State.withResult_fb (s : State) (v : Word) : (s.withResult v).fb = s.fb := rfl
@[simp] theorem State.withResult_result (s : State) (v : Word) : (s.withResult v).result = v := rfl
@[simp] theorem State.withResult_ill (s : State) (v : Word) : (s.withResult v).ill = s.ill := rfl
@[simp] theorem State.withResult_cbuf (s : State) (v : Word) : (s.withResult v).cbuf = s.cbuf := rfl
@[simp] theorem State.withResult_input (s : State) (v : Word) : (s.withResult v).input = s.input := rfl
@[simp] theorem State.withResult_readData (s : State) (v : Word) : (s.withResult v).readData = s.readData := rfl
@[simp] theorem State.withResult_resets (s : State) (v : Word) : (s.withResult v).resets = s.resets := rfl

@[simp] theorem State.withResult_withResult (s : State) (v v2 : Word) : (s.withResult v).withResult v2 = s.withResult v2 := rfl

@[simp] theorem State.withResult_self (s : State) : s.withResult s.result = s := rfl

/-! ### withIll -/

@[simp] theorem State.withIll_cfg (s : State) (v : Bool) : (s.withIll v).cfg = s.cfg := rfl
@[simp] theorem State.withIll_fb (s : State) (v : Bool) : (s.withIll v).fb = s.fb := rfl
@[simp] theorem State.withIll_result (s : State) (v : Bool) : (s.withIll v).result = s.result := rfl
@[simp] theorem State.withIll_ill (s : State) (v : Bool) : (s.withIll v).ill = v := rfl
@[simp] theorem State.withIll_cbuf (s : State) (v : Bool) : (s.withIll v).cbuf = s.cbuf := rfl
@[simp] theorem State.withIll_input (s : State) (v : Bool) : (s.withIll v).input = s.input := rfl
@[simp] theorem State.withIll_readData (s : State) (v : Bool) : (s.withIll v).readData = s.readData := rfl
@[simp] theorem State.withIll_resets (s : State) (v : Bool) : (s.withIll v).resets = s.resets := rfl

@[simp] theorem State.withIll_withIll (s : State) (v v2 : Bool) : (s.withIll v).withIll v2 = s.withIll v2 := rfl

@[simp] theorem State.withIll_self (s : State) : s.withIll s.ill = s := rfl

/-! ### withCbuf -/

@[simp] theorem State.withCbuf_cfg (s : State) (v : List Word) : (s.withCbuf v).cfg = s.cfg := rfl
@[simp] theorem State.withCbuf_fb (s : State) (v : List Word) : (s.withCbuf v).fb = s.fb := rfl
@[simp] theorem State.withCbuf_result (s : State) (v : List Word) : (s.withCbuf v).result = s.result := rfl
@[simp] theorem State.withCbuf_ill (s : State) (v : List Word) : (s.withCbuf v).ill = s.ill := rfl
@[simp] theorem State.withCbuf_cbuf (s : State) (v : List Word) : (s.withCbuf v).cbuf = v := rfl
@[simp] theorem State.withCbuf_input (s : State) (v : List Word) : (s.withCbuf v).input = s.input := rfl
@[simp] theorem State.withCbuf_readData (s : State) (v : List Word) : (s.withCbuf v).readData = s.readData := rfl
@[simp] theorem State.withCbuf_resets (s : State) (v : List Word) : (s.withCbuf v).resets = s.resets := rfl

@[simp] theorem State.withCbuf_withCbuf (s : State) (v v2 : List Word) : (s.withCbuf v).withCbuf v2 = s.withCbuf v2 := rfl

@[simp] theorem State.withCbuf_self (s : State) : s.withCbuf s.cbuf = s := rfl

/-! ### withInput -/

@[simp] theorem State.withInput_cfg (s : State) (v : List HostMove) : (s.withInput v).cfg = s.cfg := rfl
@[simp] theorem State.withInput_fb (s : State) (v : List HostMove) : (s.withInput v).fb = s.fb := rfl
@[simp] theorem State.withInput_result (s : State) (v : List HostMove) : (s.withInput v).result = s.result := rfl
@[simp] theorem State.withInput_ill (s : State) (v : List HostMove) : (s.withInput v).ill = s.ill := rfl
@[simp] theorem State.withInput_cbuf (s : State) (v : List HostMove) : (s.withInput v).cbuf = s.cbuf := rfl
@[simp] theorem State.withInput_input (s : State) (v : List HostMove) : (s.withInput v).input = v := rfl
@[simp] theorem State.withInput_readData (s : State) (v : List HostMove) : (s.withInput v).readData = s.readData := rfl
@[simp] theorem State.withInput_resets (s : State) (v : List HostMove) : (s.withInput v).resets = s.resets := rfl

@[simp] theorem State.withInput_withInput (s : State) (v v2 : List HostMove) : (s.withInput v).withInput v2 = s.withInput v2 := rfl

@[simp] theorem State.withInput_self (s : State) : s.withInput s.input = s := rfl

/-! ### withReadData -/

@[simp] theorem State.withReadData_cfg (s : State) (v : Word) : (s.withReadData v).cfg = s.cfg := rfl
@[simp] theorem State.withReadData_fb (s : State) (v : Word) : (s.withReadData v).fb = s.fb := rfl
@[simp] theorem State.withReadData_result (s : State) (v : Word) : (s.withReadData v).result = s.result := rfl
@[simp] theorem State.withReadData_ill (s : State) (v : Word) : (s.withReadData v).ill = s.ill := rfl
@[simp] theorem State.withReadData_cbuf (s : State) (v : Word) : (s.withReadData v).cbuf = s.cbuf := rfl
@[simp] theorem State.withReadData_input (s : State) (v : Word) : (s.withReadData v).input = s.input := rfl
@[simp] theorem State.withReadData_readData (s : State) (v : Word) : (s.withReadData v).readData = v := rfl
@[simp] theorem State.withReadData_resets (s : State) (v : Word) : (s.withReadData v).resets = s.resets := rfl

@[simp] theorem State.withReadData_withReadData (s : State) (v v2 : Word) : (s.withReadData v).withReadData v2 = s.withReadData v2 := rfl

@[simp] theorem State.withReadData_self (s : State) : s.withReadData s.readData = s := rfl

/-! ### withResets -/

@[simp] theorem State.withResets_cfg (s : State) (v : Nat) : (s.withResets v).cfg = s.cfg := rfl
@[simp] theorem State.withResets_fb (s : State) (v : Nat) : (s.withResets v).fb = s.fb := rfl
@[simp] theorem State.withResets_result (s : State) (v : Nat) : (s.withResets v).result = s.result := rfl
@[simp] theorem State.withResets_ill (s : State) (v : Nat) : (s.withResets v).ill = s.ill := rfl
@[simp] theorem State.withResets_cbuf (s : State) (v : Nat) : (s.withResets v).cbuf = s.cbuf := rfl
@[simp] theorem State.withResets_input (s : State) (v : Nat) : (s.withResets v).input = s.input := rfl
@[simp] theorem State.withResets_readData (s : State) (v : Nat) : (s.withResets v).readData = s.readData := rfl
@[simp] theorem State.withResets_resets (s : State) (v : Nat) : (s.withResets v).resets = v := rfl

@[simp] theorem State.withResets_withResets (s : State) (v v2 : Nat) : (s.withResets v).withResets v2 = s.withResets v2 := rfl

@[simp] theorem State.withResets_self (s : State) : s.withResets s.resets = s := rfl

/-! ### reset -/

@[simp] theorem State.reset_cfg : State.reset.cfg = Config.reference := rfl

@[simp] theorem State.reset_result : State.reset.result = 0 := rfl

@[simp] theorem State.reset_ill : State.reset.ill = false := rfl

@[simp] theorem State.reset_cbuf : State.reset.cbuf = [] := rfl

@[simp] theorem State.reset_input : State.reset.input = [] := rfl

theorem Config.freeFb_length (c : Config) (n : Nat) : (c.freeFb n).length = c.fbWords := by
  simp [Config.freeFb]

end Sys2Proof.Machine
end

