-- ==== Sys2Proof/Laws/FrameBuffer.lean ====
section
/-! SUPPORT. What the frame-buffer accessors do: length, read after write, the pixel view of 20_memory.md R57,
and extensionality of a well-formed frame buffer by its pixels. -/

namespace Sys2Proof.Machine

/-! ### Words -/

@[simp] theorem fbWrite_length (fb : List Word) (i : Nat) (v : Word) : (fbWrite fb i v).length = fb.length := by
  simp [fbWrite]

theorem fbRead_fbWrite (fb : List Word) (i j : Nat) (v : Word) :
    fbRead (fbWrite fb i v) j = if i = j ∧ i < fb.length then v else fbRead fb j := by
  unfold fbRead fbWrite
  by_cases hij : i = j
  · subst hij
    by_cases hi : i < fb.length
    · simp [List.getD, hi]
    · simp [List.getD, hi]
  · simp [List.getD, hij]

theorem fbRead_of_length_le (fb : List Word) (i : Nat) (h : fb.length ≤ i) : fbRead fb i = 0 := by
  simp [fbRead, List.getD, h]

/-- Two frame buffers of one length that read alike are equal. -/
theorem fb_ext {a b : List Word} (hl : a.length = b.length) (h : ∀ i, fbRead a i = fbRead b i) : a = b := by
  apply List.ext_getElem hl
  intro i h1 h2
  have := h i
  simpa [fbRead, List.getD, h1, h2] using this

theorem fbGuard_iff (c : Config) (line wl : Nat) : fbGuard c line wl = true ↔ line < c.lines ∧ wl < c.wpl := by
  simp [fbGuard]

@[simp] theorem fbXor_length (c : Config) (line wl : Nat) (m : Word) (fb : List Word) :
    (fbXor c line wl m fb).length = fb.length := by
  unfold fbXor; split <;> simp

@[simp] theorem fbOr_length (c : Config) (line wl : Nat) (m : Word) (fb : List Word) :
    (fbOr c line wl m fb).length = fb.length := by
  unfold fbOr; split <;> simp

@[simp] theorem fbSet_length (c : Config) (line wl : Nat) (v : Word) (fb : List Word) :
    (fbSet c line wl v fb).length = fb.length := by
  unfold fbSet; split <;> simp

theorem fbRead_fbXor (c : Config) (line wl : Nat) (m : Word) (fb : List Word) (i : Nat) :
    fbRead (fbXor c line wl m fb) i =
      if fbGuard c line wl = true ∧ fbIndex c line wl = i ∧ i < fb.length then fbRead fb i ^^^ m
      else fbRead fb i := by
  unfold fbXor
  split
  · rename_i h
    rw [fbRead_fbWrite]
    by_cases hi : fbIndex c line wl = i
    · subst hi; simp [h]
    · simp [hi]
  · rename_i h; simp [h]

theorem fbRead_fbOr (c : Config) (line wl : Nat) (m : Word) (fb : List Word) (i : Nat) :
    fbRead (fbOr c line wl m fb) i =
      if fbGuard c line wl = true ∧ fbIndex c line wl = i ∧ i < fb.length then fbRead fb i ||| m
      else fbRead fb i := by
  unfold fbOr
  split
  · rename_i h
    rw [fbRead_fbWrite]
    by_cases hi : fbIndex c line wl = i
    · subst hi; simp [h]
    · simp [hi]
  · rename_i h; simp [h]

theorem fbRead_fbSet (c : Config) (line wl : Nat) (v : Word) (fb : List Word) (i : Nat) :
    fbRead (fbSet c line wl v fb) i =
      if fbGuard c line wl = true ∧ fbIndex c line wl = i ∧ i < fb.length then v
      else fbRead fb i := by
  unfold fbSet
  split
  · rename_i h
    rw [fbRead_fbWrite]
    by_cases hi : fbIndex c line wl = i
    · subst hi; simp [h]
    · simp [hi]
  · rename_i h; simp [h]

/-! ### Line and column of a word index -/

theorem fbIndex_lt (c : Config) {line wl : Nat} (hl : line < c.lines) (hw : wl < c.wpl) :
    fbIndex c line wl < c.fbWords := by
  unfold fbIndex Config.fbWords
  have : (line + 1) * c.wpl ≤ c.lines * c.wpl := Nat.mul_le_mul_right _ hl
  rw [Nat.succ_mul] at this
  rw [Nat.mul_comm c.wpl]
  omega

theorem fbIndex_inj (c : Config) {l1 w1 l2 w2 : Nat} (h1 : w1 < c.wpl) (h2 : w2 < c.wpl) :
    fbIndex c l1 w1 = fbIndex c l2 w2 ↔ l1 = l2 ∧ w1 = w2 := by
  constructor
  · intro h
    unfold fbIndex at h
    have hp : 0 < c.wpl := by omega
    have d1 : (l1 * c.wpl + w1) / c.wpl = l1 := by
      rw [Nat.mul_comm, Nat.mul_add_div hp, Nat.div_eq_of_lt h1, Nat.add_zero]
    have d2 : (l2 * c.wpl + w2) / c.wpl = l2 := by
      rw [Nat.mul_comm, Nat.mul_add_div hp, Nat.div_eq_of_lt h2, Nat.add_zero]
    have hl : l1 = l2 := by rw [← d1, ← d2, h]
    subst hl
    exact ⟨rfl, by omega⟩
  · rintro ⟨rfl, rfl⟩; rfl

/-- Every word index of the frame buffer is a line and an in-line word (10_state.md R21). -/
theorem fbIndex_div_mod (c : Config) (i : Nat) (h : i < c.fbWords) :
    i / c.wpl < c.lines ∧ i % c.wpl < c.wpl ∧ fbIndex c (i / c.wpl) (i % c.wpl) = i := by
  unfold Config.fbWords at h
  have hp : 0 < c.wpl := by
    rcases Nat.eq_zero_or_pos c.wpl with h0 | h0
    · simp [h0] at h
    · exact h0
  refine ⟨Nat.div_lt_of_lt_mul h, Nat.mod_lt _ hp, ?_⟩
  unfold fbIndex
  rw [Nat.mul_comm]
  exact Nat.div_add_mod i c.wpl

/-! ### Pixels (20_memory.md R57) -/

@[simp] theorem wordPixel_xor (a b : Word) (j : Nat) : wordPixel (a ^^^ b) j = xor (wordPixel a j) (wordPixel b j) := by
  simp [wordPixel]

@[simp] theorem wordPixel_or (a b : Word) (j : Nat) : wordPixel (a ||| b) j = (wordPixel a j || wordPixel b j) := by
  simp [wordPixel]

@[simp] theorem wordPixel_and (a b : Word) (j : Nat) : wordPixel (a &&& b) j = (wordPixel a j && wordPixel b j) := by
  simp [wordPixel]

@[simp] theorem wordPixel_zero (j : Nat) : wordPixel 0#32 j = false := by
  simp [wordPixel]

/-- A word is its 32 pixels. -/
theorem word_ext_pixel {a b : Word} (h : ∀ j < 32, wordPixel a j = wordPixel b j) : a = b := by
  apply BitVec.eq_of_getLsbD_eq
  intro i hi
  have := h (31 - i) (by omega)
  unfold wordPixel at this
  rwa [show 31 - (31 - i) = i by omega] at this

/-- What an accessor that touches one word does to every pixel. -/
theorem pixel_of_word_update {c : Config} {fb fb' : List Word} {line wl : Nat} (g : Word → Word)
    (hwf : Memory.wf c fb = true)
    (h : ∀ i, fbRead fb' i =
      if fbGuard c line wl = true ∧ fbIndex c line wl = i ∧ i < fb.length then g (fbRead fb i) else fbRead fb i)
    {px py : Nat} (hx : px < 32 * c.wpl) (hy : py < c.lines) :
    pixel c fb' px py =
      if line = py ∧ wl = px / 32 then wordPixel (g (fbRead fb (fbIndex c py (px / 32)))) (px % 32)
      else pixel c fb px py := by
  have hq : px / 32 < c.wpl := by omega
  have hlen : fbIndex c py (px / 32) < fb.length := by
    have : fb.length = c.fbWords := by simpa [Memory.wf] using hwf
    rw [this]; exact fbIndex_lt c hy hq
  unfold pixel
  rw [h]
  by_cases hm : line = py ∧ wl = px / 32
  · obtain ⟨rfl, rfl⟩ := hm
    have hg : fbGuard c line (px / 32) = true := (fbGuard_iff _ _ _).2 ⟨hy, hq⟩
    simp [hg, hlen]
  · rw [if_neg hm, if_neg]
    rintro ⟨hg, he, -⟩
    exact hm ((fbIndex_inj c ((fbGuard_iff _ _ _).1 hg).2 hq).1 he)

theorem pixel_fbXor {c : Config} {fb : List Word} (hwf : Memory.wf c fb = true) (line wl : Nat) (m : Word)
    {px py : Nat} (hx : px < 32 * c.wpl) (hy : py < c.lines) :
    pixel c (fbXor c line wl m fb) px py =
      xor (pixel c fb px py) (decide (line = py ∧ wl = px / 32) && wordPixel m (px % 32)) := by
  rw [pixel_of_word_update (· ^^^ m) hwf (fbRead_fbXor c line wl m fb) hx hy]
  by_cases hm : line = py ∧ wl = px / 32 <;> simp [hm, pixel]

theorem pixel_fbOr {c : Config} {fb : List Word} (hwf : Memory.wf c fb = true) (line wl : Nat) (m : Word)
    {px py : Nat} (hx : px < 32 * c.wpl) (hy : py < c.lines) :
    pixel c (fbOr c line wl m fb) px py =
      (pixel c fb px py || (decide (line = py ∧ wl = px / 32) && wordPixel m (px % 32))) := by
  rw [pixel_of_word_update (· ||| m) hwf (fbRead_fbOr c line wl m fb) hx hy]
  by_cases hm : line = py ∧ wl = px / 32 <;> simp [hm, pixel]

theorem pixel_fbSet {c : Config} {fb : List Word} (hwf : Memory.wf c fb = true) (line wl : Nat) (v : Word)
    {px py : Nat} (hx : px < 32 * c.wpl) (hy : py < c.lines) :
    pixel c (fbSet c line wl v fb) px py =
      if line = py ∧ wl = px / 32 then wordPixel v (px % 32) else pixel c fb px py :=
  pixel_of_word_update (fun _ => v) hwf (fbRead_fbSet c line wl v fb) hx hy

/-- A well-formed frame buffer is its pixels. -/
theorem fb_ext_pixel {c : Config} {a b : List Word} (ha : Memory.wf c a = true) (hb : Memory.wf c b = true)
    (h : ∀ px py, px < 32 * c.wpl → py < c.lines → pixel c a px py = pixel c b px py) : a = b := by
  have la : a.length = c.fbWords := by simpa [Memory.wf] using ha
  have lb : b.length = c.fbWords := by simpa [Memory.wf] using hb
  refine fb_ext (by omega) fun i => ?_
  by_cases hi : i < c.fbWords
  · obtain ⟨h1, h2, h3⟩ := fbIndex_div_mod c i hi
    apply word_ext_pixel
    intro j hj
    have := h (32 * (i % c.wpl) + j) (i / c.wpl) (by omega) h1
    unfold pixel at this
    rw [show (32 * (i % c.wpl) + j) / 32 = i % c.wpl by omega,
      show (32 * (i % c.wpl) + j) % 32 = j by omega, h3] at this
    exact this
  · rw [fbRead_of_length_le _ _ (by omega), fbRead_of_length_le _ _ (by omega)]

end Sys2Proof.Machine
end

