-- ==== Sys2Proof/Laws/Loops.lean ====
section
/-! SUPPORT. The induction over a loop of 00_scope.md R7, packaged once. -/

namespace Sys2Proof.Machine

variable {α : Type}

@[simp] theorem iterate_zero (body : Nat → α → α) (a : Nat) (x : α) : iterate body a 0 x = x := rfl

@[simp] theorem iterate_succ (body : Nat → α → α) (a n : Nat) (x : α) :
    iterate body a (n + 1) x = body (a + n) (iterate body a n x) := rfl

/-- A loop run zero times (00_scope.md R7: "zero times when a ≥ b"). -/
theorem forLoop_empty (body : Nat → α → α) {a b : Nat} (h : b ≤ a) (x : α) : forLoop a b body x = x := by
  simp [forLoop, Nat.sub_eq_zero_of_le h]

/-- Induction over the iterations: `P k` holds before iteration `k`, so `P` holds of the end. -/
theorem iterate_induct (P : Nat → α → Prop) (body : Nat → α → α) (a : Nat) :
    ∀ (n : Nat) (x : α), P a x → (∀ k y, a ≤ k → k < a + n → P k y → P (k + 1) (body k y)) →
      P (a + n) (iterate body a n x)
  | 0, _, h, _ => h
  | n + 1, x, h, hs =>
    hs (a + n) _ (by omega) (by omega)
      (iterate_induct P body a n x h fun k y h1 h2 => hs k y h1 (by omega))

/-- `iterate_induct` for a `for` loop whose bounds are in order. -/
theorem forLoop_induct (P : Nat → α → Prop) (body : Nat → α → α) {a b : Nat} (hab : a ≤ b) (x : α) (h : P a x)
    (hs : ∀ k y, a ≤ k → k < b → P k y → P (k + 1) (body k y)) : P b (forLoop a b body x) := by
  have := iterate_induct P body a (b - a) x h fun k y h1 h2 => hs k y h1 (by omega)
  rwa [show a + (b - a) = b by omega] at this

/-- What every iteration keeps, the loop keeps. -/
theorem forLoop_keeps (P : α → Prop) (body : Nat → α → α) (a b : Nat) (x : α) (h : P x)
    (hs : ∀ k y, P y → P (body k y)) : P (forLoop a b body x) :=
  iterate_induct (fun _ => P) body a (b - a) x h fun k y _ _ => hs k y

/-- What two runs of a loop share before, each iteration keeping it, they share after. -/
theorem forLoop_related (R : α → α → Prop) (body : Nat → α → α) (a b : Nat) {x y : α} (h : R x y)
    (hs : ∀ k u v, R u v → R (body k u) (body k v)) : R (forLoop a b body x) (forLoop a b body y) := by
  unfold forLoop
  induction b - a with
  | zero => exact h
  | succ n ih => exact hs (a + n) _ _ ih

/-- The same for a loop whose body can fail: each iteration completes and moves `P` on. -/
theorem iterateM_induct (P : Nat → α → Prop) (body : Nat → α → Option α) (a : Nat) :
    ∀ (n : Nat) (x : α), P a x → (∀ k y, a ≤ k → k < a + n → P k y → ∃ z, body k y = some z ∧ P (k + 1) z) →
      ∃ z, iterateM body a n x = some z ∧ P (a + n) z
  | 0, x, h, _ => ⟨x, rfl, h⟩
  | n + 1, x, h, hs => by
    obtain ⟨y, hy, hp⟩ := iterateM_induct P body a n x h fun k y h1 h2 => hs k y h1 (by omega)
    obtain ⟨z, hz, hq⟩ := hs (a + n) y (by omega) (by omega) hp
    exact ⟨z, by simp [iterateM, hy, hz], hq⟩

/-- What every iteration that completes keeps, a loop that completes keeps. -/
theorem iterateM_keeps (P : α → Prop) (body : Nat → α → Option α) (a : Nat)
    (hs : ∀ k y z, P y → body k y = some z → P z) :
    ∀ (n : Nat) (x z : α), P x → iterateM body a n x = some z → P z
  | 0, x, z, h, hz => by simp [iterateM] at hz; exact hz ▸ h
  | n + 1, x, z, h, hz => by
    simp only [iterateM] at hz
    split at hz
    · rename_i y hy
      exact hs _ y z (iterateM_keeps P body a hs n x y h hy) hz
    · cases hz

/-- A loop fails exactly when one of its iterations, reached with the value of those before it, fails. -/
theorem iterateM_eq_none (body : Nat → α → Option α) (a : Nat) :
    ∀ (n : Nat) (x : α), iterateM body a n x = none ↔
      ∃ k, k < n ∧ ∃ y, iterateM body a k x = some y ∧ body (a + k) y = none
  | 0, x => by simp [iterateM]
  | n + 1, x => by
    simp only [iterateM]
    constructor
    · intro h
      split at h
      · rename_i y hy
        exact ⟨n, by omega, y, hy, h⟩
      · rename_i hn
        obtain ⟨k, hk, r⟩ := (iterateM_eq_none body a n x).1 hn
        exact ⟨k, by omega, r⟩
    · rintro ⟨k, hk, y, hy, hb⟩
      by_cases hkn : k = n
      · subst hkn; simp [hy, hb]
      · have : iterateM body a n x = none := (iterateM_eq_none body a n x).2 ⟨k, by omega, y, hy, hb⟩
        simp [this]

end Sys2Proof.Machine
end

