-- ==== Sys2Proof/Laws/Rows.lean ====
section
/-! SUPPORT. The two halves of a row's draw by pixels: what `justifyRow` takes out of the 64-bit payload value
(41_xorchar.md R123) and what `xorRow` puts into a line (41_xorchar.md R124). -/

namespace Sys2Proof.Machine

theorem and_31 (n : Nat) : n &&& 31 = n % 32 := Nat.and_two_pow_sub_one_eq_mod n 5

theorem shiftRight_5 (n : Nat) : n >>> 5 = n / 32 := Nat.shiftRight_eq_div_pow n 5

/-- Pixel `j` of a justified row is bit `63 − s − j` of the payload value for `j < w`, and 0 from there on. -/
theorem wordPixel_justifyRow (p64 : Nat) {s w j : Nat} (hs : s < 32) (hw1 : 1 ≤ w) (hw : w ≤ 32) (hj : j < 32) :
    wordPixel (justifyRow p64 s w) j = (decide (j < w) && p64.testBit (63 - s - j)) := by
  unfold wordPixel justifyRow
  rw [BitVec.getLsbD_ofNat, Nat.testBit_shiftLeft, Nat.testBit_and, Nat.testBit_shiftRight, Nat.one_shiftLeft,
    Nat.testBit_two_pow_sub_one]
  by_cases h : j < w
  · rw [show 64 - s - w + (31 - j - (32 - w)) = 63 - s - j by omega]
    simp [h, show 31 - j < 32 by omega, show 31 - j ≥ 32 - w by omega, show 31 - j - (32 - w) < w by omega]
  · simp [h, show ¬ (31 - j ≥ 32 - w) by omega]

/-- The payload value of one word, at a pixel of that word. -/
theorem testBit_payload_low (w0 : Word) {k : Nat} (hk : 32 ≤ k) (hk' : k ≤ 63) :
    (w0.toNat <<< 32).testBit k = wordPixel w0 (63 - k) := by
  rw [Nat.testBit_shiftLeft, wordPixel, show 31 - (63 - k) = k - 32 by omega, BitVec.testBit_toNat]
  simp [hk]

/-- The payload value of two words. -/
theorem testBit_payload_pair (w0 w1 : Word) {k : Nat} (hk' : k ≤ 63) :
    ((w0.toNat <<< 32) ||| w1.toNat).testBit k =
      if 32 ≤ k then wordPixel w0 (63 - k) else wordPixel w1 (31 - k) := by
  rw [Nat.testBit_or]
  split
  · rename_i h
    rw [testBit_payload_low w0 h hk', BitVec.testBit_toNat, BitVec.getLsbD_of_ge _ _ h, Bool.or_false]
  · rename_i h
    rw [Nat.testBit_shiftLeft, BitVec.testBit_toNat, wordPixel, show 31 - (31 - k) = k by omega]
    simp only [h, BitVec.testBit_toNat, decide_false, Bool.false_and, Bool.false_or]

@[simp] theorem xorRow_length (c : Config) (line dx w : Nat) (pat : Word) (fb : List Word) :
    (xorRow c line dx w pat fb).length = fb.length := by
  unfold xorRow
  simp only
  split <;> simp

theorem fb_wf_of_length {c : Config} {a b : List Word} (h : b.length = a.length) (ha : Memory.wf c a = true) :
    Memory.wf c b = true := by
  simpa [Memory.wf, h] using ha

/-- The low destination word: pixel `j` is the pattern's pixel `j − ds`. -/
theorem wordPixel_dest_low (pat : Word) {ds j : Nat} (hj : j < 32) :
    wordPixel (BitVec.ofNat 32 (((pat.toNat <<< 32) >>> ds) >>> 32)) j =
      (decide (ds ≤ j) && wordPixel pat (j - ds)) := by
  unfold wordPixel
  rw [BitVec.getLsbD_ofNat, Nat.testBit_shiftRight, Nat.testBit_shiftRight, Nat.testBit_shiftLeft, BitVec.testBit_toNat]
  by_cases h : ds ≤ j
  · simp [h, show 31 - j < 32 by omega, show 32 ≤ ds + (32 + (31 - j)) by omega,
      show ds + (32 + (31 - j)) - 32 = 31 - (j - ds) by omega]
  · simp [h, BitVec.getLsbD_of_ge pat (ds + (32 + (31 - j)) - 32) (by omega)]

/-- The high destination word: pixel `j` is the pattern's pixel `32 − ds + j`. -/
theorem wordPixel_dest_high (pat : Word) {ds j : Nat} (hds : ds < 32) (hj : j < 32) :
    wordPixel (BitVec.ofNat 32 ((pat.toNat <<< 32) >>> ds)) j =
      (decide (j < ds) && wordPixel pat (32 - ds + j)) := by
  unfold wordPixel
  rw [BitVec.getLsbD_ofNat, Nat.testBit_shiftRight, Nat.testBit_shiftLeft, BitVec.testBit_toNat]
  by_cases h : j < ds
  · simp [h, show 31 - j < 32 by omega, show 32 ≤ ds + (31 - j) by omega,
      show ds + (31 - j) - 32 = 31 - (32 - ds + j) by omega]
  · simp [h, show ¬ 32 ≤ ds + (31 - j) by omega]

/-- What `xorRow` does to every pixel: line `line`, columns `dx .. dx+w−1`, the pattern's pixels (41_xorchar.md R124).
The pattern is `w` pixels wide. -/
theorem pixel_xorRow {c : Config} {fb : List Word} (hwf : Memory.wf c fb = true) (line dx : Nat) {w : Nat} {pat : Word}
    (hw : w ≤ 32) (hpat : ∀ j, w ≤ j → j < 32 → wordPixel pat j = false)
    {px py : Nat} (hx : px < 32 * c.wpl) (hy : py < c.lines) :
    pixel c (xorRow c line dx w pat fb) px py =
      xor (pixel c fb px py) (decide (line = py ∧ dx ≤ px ∧ px < dx + w) && wordPixel pat (px - dx)) := by
  unfold xorRow
  simp only [and_31, shiftRight_5]
  have hds : dx % 32 < 32 := Nat.mod_lt _ (by omega)
  have hj : px % 32 < 32 := Nat.mod_lt _ (by omega)
  have hwf1 : ∀ m, Memory.wf c (fbXor c line (dx / 32) m fb) = true := fun m => fb_wf_of_length (by simp) hwf
  have low := pixel_fbXor hwf line (dx / 32) (BitVec.ofNat 32 (((pat.toNat <<< 32) >>> (dx % 32)) >>> 32)) hx hy
  rw [wordPixel_dest_low pat hj] at low
  have high := pixel_fbXor (hwf1 (BitVec.ofNat 32 (((pat.toNat <<< 32) >>> (dx % 32)) >>> 32))) line (dx / 32 + 1)
    (BitVec.ofNat 32 ((pat.toNat <<< 32) >>> (dx % 32))) hx hy
  rw [wordPixel_dest_high pat hds hj] at high
  by_cases hline : line = py
  swap
  · split
    · rw [high, low]; simp [hline]
    · rw [low]; simp [hline]
  subst hline
  by_cases hq : dx / 32 = px / 32
  · have hcond : (decide (dx % 32 ≤ px % 32) && wordPixel pat (px % 32 - dx % 32)) =
        (decide (dx ≤ px ∧ px < dx + w) && wordPixel pat (px - dx)) := by
      by_cases hle : dx ≤ px
      · rw [show px % 32 - dx % 32 = px - dx by omega]
        by_cases hlt : px < dx + w
        · simp [hle, hlt, show dx % 32 ≤ px % 32 by omega]
        · simp [hpat (px - dx) (by omega) (by omega)]
      · simp [hle, show ¬ dx % 32 ≤ px % 32 by omega]
    split
    · rw [high, low]
      simp [hq, hcond]
    · rw [low]
      simp [hq, hcond]
  · by_cases hq1 : dx / 32 + 1 = px / 32
    · have hcond : (decide (px % 32 < dx % 32) && wordPixel pat (32 - dx % 32 + px % 32)) =
          (decide (dx ≤ px ∧ px < dx + w) && wordPixel pat (px - dx)) := by
        rw [show 32 - dx % 32 + px % 32 = px - dx by omega]
        by_cases hlt : px < dx + w
        · simp [hlt, show dx ≤ px by omega, show px % 32 < dx % 32 by omega]
        · by_cases hm : px % 32 < dx % 32
          · simp [hpat (px - dx) (by omega) (by omega)]
          · simp [hm, hlt]
      split
      · rw [high, low]
        simp [hq, hq1, hcond]
      · rename_i hn
        rw [low]
        simp [hq, show ¬ (dx ≤ px ∧ px < dx + w) by omega]
    · have hno : ¬ (dx ≤ px ∧ px < dx + w) := by omega
      split
      · rw [high, low]
        simp [hq, hq1, hno]
      · rw [low]
        simp [hq, hno]

end Sys2Proof.Machine
end

