-- ==== Sys2Proof/Laws/Draw.lean ====
section
/-! SUPPORT. The character draw that `XORCHAR` and `DRAWSTR` share (41_xorchar.md R121 to R127): the row pattern, one
row, all rows, the core; each said once by pixels, and once as an XOR with words that do not depend on the frame
buffer. -/

namespace Sys2Proof.Machine

/-! ### The row pattern (41_xorchar.md R123) -/

/-- Pixel `j` of a row's pattern is the glyph's bit for `j < w` and 0 from there on. -/
theorem wordPixel_rowPattern {fnt : Font} {off w r : Nat} {pat : Word} (h : rowPattern fnt off w r = some pat)
    (hw1 : 1 ≤ w) (hw : w ≤ 32) {j : Nat} (hj : j < 32) :
    wordPixel pat j = (decide (j < w) && glyphBit fnt off w r j) := by
  unfold rowPattern at h
  simp only [and_31, shiftRight_5] at h
  have hs : r * w % 32 < 32 := Nat.mod_lt _ (by omega)
  split at h
  · cases h
  rename_i w0 h0
  have low : j + r * w % 32 ≤ 31 → glyphBit fnt off w r j = wordPixel w0 (r * w % 32 + j) := by
    intro hle
    unfold glyphBit
    rw [show (r * w + j) / 32 = r * w / 32 by omega, show (r * w + j) % 32 = r * w % 32 + j by omega, h0]
    rfl
  split at h
  · split at h
    · cases h
    rename_i w1 h1
    cases h
    rw [wordPixel_justifyRow _ hs hw1 hw hj]
    by_cases hlt : j < w
    · simp only [hlt, decide_true, Bool.true_and]
      rw [testBit_payload_pair _ _ (by omega)]
      split
      · rw [low (by omega), show 63 - (63 - r * w % 32 - j) = r * w % 32 + j by omega]
      · unfold glyphBit
        rw [show (r * w + j) / 32 = r * w / 32 + 1 by omega, ← Nat.add_assoc, h1,
          show 31 - (63 - r * w % 32 - j) = (r * w + j) % 32 by omega]
        rfl
    · simp [hlt]
  · cases h
    rw [wordPixel_justifyRow _ hs hw1 hw hj]
    by_cases hlt : j < w
    · simp only [hlt, decide_true, Bool.true_and]
      rw [testBit_payload_low _ (by omega) (by omega), low (by omega),
        show 63 - (63 - r * w % 32 - j) = r * w % 32 + j by omega]
    · simp [hlt]

theorem fontRead_eq_none (fnt : Font) (i : Nat) : fontRead fnt i = none ↔ fnt.data.length ≤ i := by
  simp [fontRead]

theorem fontRead_isSome {fnt : Font} {i : Nat} (h : i < fnt.data.length) : ∃ w, fontRead fnt i = some w :=
  ⟨_, List.getElem?_eq_getElem h⟩

/-- A row has no pattern exactly when the payload word of its last pixel is outside the font's data. -/
theorem rowPattern_eq_none {fnt : Font} {off w r : Nat} (hw1 : 1 ≤ w) (hw : w ≤ 32) :
    rowPattern fnt off w r = none ↔ fnt.data.length ≤ off + 1 + (r * w + w - 1) / 32 := by
  unfold rowPattern
  simp only [and_31, shiftRight_5]
  have hs : r * w % 32 < 32 := Nat.mod_lt _ (by omega)
  by_cases h0 : off + 1 + r * w / 32 < fnt.data.length
  · obtain ⟨w0, e0⟩ := fontRead_isSome h0
    rw [e0]
    by_cases hp : w > 32 - r * w % 32
    · simp only [hp, if_true]
      rw [show (r * w + w - 1) / 32 = r * w / 32 + 1 by omega]
      by_cases h1 : off + 1 + r * w / 32 + 1 < fnt.data.length
      · obtain ⟨w1, e1⟩ := fontRead_isSome h1
        rw [e1]
        simp; omega
      · rw [(fontRead_eq_none _ _).2 (by omega)]
        simp; omega
    · simp only [hp, if_false]
      rw [show (r * w + w - 1) / 32 = r * w / 32 by omega]
      simp; omega
  · rw [(fontRead_eq_none _ _).2 (by omega)]
    simp only [true_iff]
    omega

/-! ### One row and all rows, by pixels -/

/-- One row, if it is drawn: line `top + r`, columns `dx .. dx+w−1`, the glyph's bits. -/
theorem drawRow_pixel {c : Config} {fnt : Font} {off w dx top r : Nat} {fb fb' : List Word} (hw : w ≤ 32)
    (h : drawRow c fnt off w dx top r fb = some fb') :
    fb'.length = fb.length ∧ (Memory.wf c fb = true → ∀ px py, px < 32 * c.wpl → py < c.lines →
      pixel c fb' px py = xor (pixel c fb px py)
        (decide (top + r = py ∧ dx ≤ px ∧ px < dx + w) && glyphBit fnt off w r (px - dx))) := by
  unfold drawRow at h
  split at h
  · rename_i hw1
    split at h
    · rename_i pat hp
      cases h
      refine ⟨by simp, fun hwf px py hx hy => ?_⟩
      rw [pixel_xorRow hwf (top + r) dx hw
        (fun j h1 h2 => by rw [wordPixel_rowPattern hp hw1 hw h2]; simp; omega) hx hy]
      by_cases hc : top + r = py ∧ dx ≤ px ∧ px < dx + w
      · rw [wordPixel_rowPattern hp hw1 hw (by omega)]
        simp [show px - dx < w by omega]
      · simp [hc]
    · cases h
  · cases h
    refine ⟨rfl, fun _ px py _ _ => ?_⟩
    simp [show ¬ (dx ≤ px ∧ px < dx + w) by omega]

theorem drawRow_eq_none {c : Config} {fnt : Font} {off w dx top r : Nat} {fb : List Word} (hw : w ≤ 32) :
    drawRow c fnt off w dx top r fb = none ↔
      1 ≤ w ∧ fnt.data.length ≤ off + 1 + (r * w + w - 1) / 32 := by
  unfold drawRow
  by_cases hw1 : w ≥ 1
  · rw [if_pos hw1, ← rowPattern_eq_none hw1 hw]
    cases rowPattern fnt off w r <;> simp [hw1]
  · rw [if_neg hw1]; simp; omega

/-- The rows a loop has drawn after `k` iterations. -/
theorem drawRows_pixel {c : Config} {fnt : Font} {off w dx top : Nat} (hw : w ≤ 32) :
    ∀ (n : Nat) {fb fb' : List Word}, iterateM (drawRow c fnt off w dx top) 0 n fb = some fb' →
      fb'.length = fb.length ∧ (Memory.wf c fb = true → ∀ px py, px < 32 * c.wpl → py < c.lines →
        pixel c fb' px py = xor (pixel c fb px py)
          (decide (dx ≤ px ∧ px < dx + w ∧ top ≤ py ∧ py < top + n) && glyphBit fnt off w (py - top) (px - dx)))
  | 0, fb, fb', h => by
    cases h
    refine ⟨rfl, fun _ px py _ _ => ?_⟩
    simp [show ¬ (top ≤ py ∧ py < top) by omega]
  | n + 1, fb, fb', h => by
    simp only [iterateM, Nat.zero_add] at h
    split at h
    · rename_i fb1 h1
      obtain ⟨l1, p1⟩ := drawRows_pixel hw n h1
      obtain ⟨l2, p2⟩ := drawRow_pixel hw h
      refine ⟨l2.trans l1, fun hwf px py hx hy => ?_⟩
      rw [p2 (fb_wf_of_length l1 hwf) px py hx hy, p1 hwf px py hx hy]
      by_cases hrow : top + n = py
      · subst hrow
        by_cases hcol : dx ≤ px ∧ px < dx + w <;> simp [hcol]
      · by_cases hc : dx ≤ px ∧ px < dx + w ∧ top ≤ py ∧ py < top + n
        · simp [hc, hrow, show py < top + (n + 1) by omega]
        · simp [hc, hrow, show ¬ (dx ≤ px ∧ px < dx + w ∧ top ≤ py ∧ py < top + (n + 1)) by omega]
    · cases h

/-- The rows complete exactly when the payload word of the last one's last pixel is inside the font's data. -/
theorem drawRows_eq_none {c : Config} {fnt : Font} {off w dx top : Nat} (hw : w ≤ 32) (n : Nat) (fb : List Word) :
    iterateM (drawRow c fnt off w dx top) 0 n fb = none ↔
      1 ≤ w ∧ 1 ≤ n ∧ fnt.data.length ≤ off + 1 + (n * w - 1) / 32 := by
  induction n with
  | zero => simp [iterateM]
  | succ n ih =>
    simp only [iterateM, Nat.zero_add]
    have hmono : (n * w - 1) / 32 ≤ ((n + 1) * w - 1) / 32 :=
      Nat.div_le_div_right (Nat.sub_le_sub_right (Nat.mul_le_mul_right _ (Nat.le_succ n)) 1)
    have hlast : (n + 1) * w - 1 = n * w + w - 1 := by rw [Nat.succ_mul]
    cases hd : iterateM (drawRow c fnt off w dx top) 0 n fb with
    | none =>
      have := ih.1 hd
      simp only [true_iff]
      omega
    | some fb1 =>
      show drawRow c fnt off w dx top n fb1 = none ↔ _
      rw [drawRow_eq_none hw, hlast]
      constructor <;> intro h <;> omega

/-! ### The core -/

/-- What `XorCharCore` answers: the outcome it has (41_xorchar.md R121, R125), with the drawn frame buffer by
pixels (R126). -/
theorem xorCharCore_cases (c : Config) (fnt : Font) (r : Region) (x y : Nat) (cp : CodePoint) (fb : List Word) :
    (regionOk c r = false ∧ xorCharCore c fnt r x y cp fb = some (fb, 0)) ∨
    (regionOk c r = true ∧ glyphHeader fnt cp = none ∧ xorCharCore c fnt r x y cp fb = none) ∨
    (regionOk c r = true ∧ ∃ hd, glyphHeader fnt cp = some hd ∧
      ((32 < hd.width.toNat ∧ xorCharCore c fnt r x y cp fb = some (fb, 0)) ∨
       (hd.width.toNat ≤ 32 ∧
        let top := y + hd.yOffset.toNat
        let rows := min hd.height.toNat (r.y1.toNat - top)
        ((1 ≤ hd.width.toNat ∧ 1 ≤ rows ∧
            fnt.data.length ≤ glyphIndex fnt cp + 1 + (rows * hd.width.toNat - 1) / 32 ∧
            xorCharCore c fnt r x y cp fb = none) ∨
         (¬ (1 ≤ hd.width.toNat ∧ 1 ≤ rows ∧
            fnt.data.length ≤ glyphIndex fnt cp + 1 + (rows * hd.width.toNat - 1) / 32) ∧
          ∃ fb', xorCharCore c fnt r x y cp fb = some (fb', hd.width.toNat + 3) ∧ fb'.length = fb.length ∧
            (Memory.wf c fb = true → ∀ px py, px < 32 * c.wpl → py < c.lines →
              pixel c fb' px py = xor (pixel c fb px py)
                (decide (x + 1 ≤ px ∧ px < x + 1 + hd.width.toNat ∧ top ≤ py ∧ py < top + hd.height.toNat ∧
                    py < r.y1.toNat) &&
                  glyphBit fnt (glyphIndex fnt cp) hd.width.toNat (py - top) (px - (x + 1))))))))) := by
  by_cases hr : regionOk c r = true
  swap
  · left
    exact ⟨by simpa using hr, by simp [xorCharCore, hr]⟩
  right
  cases hh : glyphHeader fnt cp with
  | none => exact .inl ⟨hr, rfl, by simp [xorCharCore, hr, hh]⟩
  | some hd =>
    right
    refine ⟨hr, hd, rfl, ?_⟩
    by_cases hw : hd.width.toNat ≤ 32
    swap
    · exact .inl ⟨by omega, by simp [xorCharCore, hr, hh, maxGlyphWidth]; omega⟩
    right
    refine ⟨hw, ?_⟩
    intro top rows
    have hcore : xorCharCore c fnt r x y cp fb =
        match iterateM (drawRow c fnt (glyphIndex fnt cp) hd.width.toNat (x + 1) top) 0 rows fb with
        | none => none
        | some fb' => some (fb', hd.width.toNat + 3) := by
      unfold xorCharCore
      rw [if_pos hr, hh]
      exact if_neg (show ¬ hd.width.toNat > maxGlyphWidth by unfold maxGlyphWidth; omega)
    rw [hcore]
    by_cases hn : 1 ≤ hd.width.toNat ∧ 1 ≤ rows ∧
        fnt.data.length ≤ glyphIndex fnt cp + 1 + (rows * hd.width.toNat - 1) / 32
    · left
      refine ⟨hn.1, hn.2.1, hn.2.2, ?_⟩
      rw [(drawRows_eq_none hw rows fb).2 hn]
    · right
      refine ⟨hn, ?_⟩
      cases hd' : iterateM (drawRow c fnt (glyphIndex fnt cp) hd.width.toNat (x + 1) top) 0 rows fb with
      | none => exact absurd ((drawRows_eq_none hw rows fb).1 hd') hn
      | some fb' =>
        obtain ⟨hl, hp⟩ := drawRows_pixel hw rows hd'
        refine ⟨fb', rfl, hl, fun hwf px py hx hy => ?_⟩
        rw [hp hwf px py hx hy]
        congr 2
        apply decide_eq_decide.2
        simp only [rows]
        omega

/-- WF-FONT clauses 1 and 2 for a character rule the refusal out (10_state.md R25; 20_memory.md R58). -/
theorem payload_in_range {fnt : Font} {cp : CodePoint} {hd : Header} (h : glyphReadable fnt cp = true)
    (hh : glyphHeader fnt cp = some hd) {rows : Nat} (hrows : rows ≤ hd.height.toNat) :
    ¬ (1 ≤ hd.width.toNat ∧ 1 ≤ rows ∧
      fnt.data.length ≤ glyphIndex fnt cp + 1 + (rows * hd.width.toNat - 1) / 32) := by
  rintro ⟨h1, h2, h3⟩
  unfold glyphReadable payloadWords Font.len at h
  rw [hh] at h
  simp only [decide_eq_true_eq] at h
  have hm : rows * hd.width.toNat ≤ hd.width.toNat * hd.height.toNat := by
    rw [Nat.mul_comm]; exact Nat.mul_le_mul_left _ hrows
  have hpos : 1 ≤ rows * hd.width.toNat := Nat.mul_pos h2 h1
  omega

/-- A readable character is drawn or rejected, never refused: the advance is `drawnAdvance`, the pixels are those of
`glyphFlips`. -/
theorem xorCharCore_readable {c : Config} {fnt : Font} {cp : CodePoint} (h : glyphReadable fnt cp = true)
    (r : Region) (x y : Nat) (fb : List Word) :
    ∃ fb', xorCharCore c fnt r x y cp fb = some (fb', drawnAdvance c fnt r cp) ∧ fb'.length = fb.length ∧
      (Memory.wf c fb = true → ∀ px py, px < 32 * c.wpl → py < c.lines →
        pixel c fb' px py = xor (pixel c fb px py) (glyphFlips c fnt r x y cp px py)) := by
  rcases xorCharCore_cases c fnt r x y cp fb with ⟨hr, e⟩ | ⟨-, hn, -⟩ | ⟨hr, hd, hh, h1⟩
  · refine ⟨fb, ?_, rfl, fun _ px py _ _ => ?_⟩
    · rw [e]; unfold drawnAdvance; cases glyphHeader fnt cp <;> simp [hr]
    · unfold glyphFlips; cases glyphHeader fnt cp <;> simp [hr]
  · simp [glyphReadable, hn] at h
  · rcases h1 with ⟨hw, e⟩ | ⟨hw, h2⟩
    · refine ⟨fb, ?_, rfl, fun _ px py _ _ => ?_⟩
      · rw [e]; simp [drawnAdvance, hh, show ¬ hd.width.toNat ≤ 32 by omega]
      · simp [glyphFlips, hh, show ¬ hd.width.toNat ≤ 32 by omega]
    · rcases h2 with ⟨a1, a2, a3, -⟩ | ⟨-, fb', e, hl, hp⟩
      · exact absurd ⟨a1, a2, a3⟩ (payload_in_range h hh (Nat.min_le_left _ _))
      · refine ⟨fb', ?_, hl, fun hwf px py hx hy => ?_⟩
        · rw [e]; simp [drawnAdvance, hh, hr, hw]
        · rw [hp hwf px py hx hy]; simp [glyphFlips, hh, hr, hw]

/-- A draw that completes keeps the frame buffer's length. -/
theorem xorCharCore_length {c : Config} {fnt : Font} {r : Region} {x y : Nat} {cp : CodePoint} {fb fb' : List Word}
    {adv : Nat} (h : xorCharCore c fnt r x y cp fb = some (fb', adv)) : fb'.length = fb.length := by
  rcases xorCharCore_cases c fnt r x y cp fb with ⟨-, e⟩ | ⟨-, -, e⟩ | ⟨-, hd, -, ⟨-, e⟩ | ⟨-, ⟨-, -, -, e⟩ | ⟨-, fb1, e, hl, -⟩⟩⟩ <;>
    rw [e] at h <;> cases h <;> first | rfl | exact hl

/-! ### The draw as an XOR with fixed words -/

/-- `fb'` is `fb` with every word `i` XORed with `m i`. -/
def XorBy (m : Nat → Word) (fb fb' : List Word) : Prop :=
  fb'.length = fb.length ∧ ∀ i, i < fb.length → fbRead fb' i = fbRead fb i ^^^ m i

theorem XorBy.refl (fb : List Word) : XorBy (fun _ => 0) fb fb := ⟨rfl, fun _ _ => by simp⟩

theorem XorBy.trans {m n : Nat → Word} {a b d : List Word} (h1 : XorBy m a b) (h2 : XorBy n b d) :
    XorBy (fun i => m i ^^^ n i) a d :=
  ⟨h2.1.trans h1.1, fun i hi => by rw [h2.2 i (by rw [h1.1]; exact hi), h1.2 i hi, BitVec.xor_assoc]⟩

/-- The same words XORed into the same frame buffer give the same frame buffer. -/
theorem XorBy.unique {m n : Nat → Word} {a b d : List Word} (hmn : ∀ i, m i = n i) (h1 : XorBy m a b)
    (h2 : XorBy n a d) : b = d := by
  refine fb_ext (h1.1.trans h2.1.symm) fun i => ?_
  by_cases hi : i < a.length
  · rw [h1.2 i hi, h2.2 i hi, hmn]
  · rw [fbRead_of_length_le _ _ (by rw [h1.1]; omega), fbRead_of_length_le _ _ (by rw [h2.1]; omega)]

/-- XORed in twice, the words cancel. -/
theorem XorBy.cancel {m : Nat → Word} {a b d : List Word} (h1 : XorBy m a b) (h2 : XorBy m b d) : d = a :=
  (h1.trans h2).unique (n := fun _ => 0) (by simp) (XorBy.refl a)

theorem fbXor_xorBy (c : Config) (line wl : Nat) (m : Word) : ∃ n, ∀ fb, XorBy n fb (fbXor c line wl m fb) := by
  refine ⟨fun i => if fbGuard c line wl = true ∧ fbIndex c line wl = i then m else 0, fun fb => ⟨by simp, fun i hi => ?_⟩⟩
  rw [fbRead_fbXor]
  by_cases h : fbGuard c line wl = true ∧ fbIndex c line wl = i
  · simp only [if_pos h, if_pos (show fbGuard c line wl = true ∧ fbIndex c line wl = i ∧ i < fb.length from
      ⟨h.1, h.2, hi⟩)]
  · simp only [if_neg h]
    rw [if_neg (fun hh => h ⟨hh.1, hh.2.1⟩)]
    simp

theorem xorRow_xorBy (c : Config) (line dx w : Nat) (pat : Word) :
    ∃ n, ∀ fb, XorBy n fb (xorRow c line dx w pat fb) := by
  obtain ⟨n1, h1⟩ := fbXor_xorBy c line (dx >>> 5) (BitVec.ofNat 32 (((pat.toNat <<< 32) >>> (dx &&& 31)) >>> 32))
  obtain ⟨n2, h2⟩ := fbXor_xorBy c line (dx >>> 5 + 1) (BitVec.ofNat 32 ((pat.toNat <<< 32) >>> (dx &&& 31)))
  unfold xorRow
  by_cases hw : w > 32 - (dx &&& 31)
  · exact ⟨_, fun fb => by simp only [if_pos hw]; exact (h1 fb).trans (h2 _)⟩
  · exact ⟨_, fun fb => by simp only [if_neg hw]; exact h1 fb⟩

/-- A loop of rows fails on every frame buffer or XORs the same words into every one. -/
theorem drawRows_uniform (c : Config) (fnt : Font) (off w dx top n : Nat) :
    (∀ fb, iterateM (drawRow c fnt off w dx top) 0 n fb = none) ∨
    ∃ m, ∀ fb, ∃ fb', iterateM (drawRow c fnt off w dx top) 0 n fb = some fb' ∧ XorBy m fb fb' := by
  induction n with
  | zero => exact .inr ⟨_, fun fb => ⟨fb, rfl, XorBy.refl fb⟩⟩
  | succ n ih =>
    rcases ih with ih | ⟨m, ih⟩
    · exact .inl fun fb => by simp [iterateM, ih]
    · by_cases hw : w ≥ 1
      · cases hp : rowPattern fnt off w n with
        | none =>
          left
          intro fb
          obtain ⟨fb', e, -⟩ := ih fb
          simp [iterateM, e, drawRow, hw, hp]
        | some pat =>
          right
          obtain ⟨m2, h2⟩ := xorRow_xorBy c (top + n) dx w pat
          refine ⟨fun i => m i ^^^ m2 i, fun fb => ?_⟩
          obtain ⟨fb', e, hx⟩ := ih fb
          exact ⟨_, by simp [iterateM, e, drawRow, hw, hp], hx.trans (h2 fb')⟩
      · right
        refine ⟨m, fun fb => ?_⟩
        obtain ⟨fb', e, hx⟩ := ih fb
        exact ⟨fb', by simp [iterateM, e, drawRow, hw], hx⟩

/-- A character's draw is refused on every frame buffer, or has one advance and XORs the same words into every one: it
never looks at the frame buffer (10_state.md R31; 41_xorchar.md R129). -/
theorem xorCharCore_uniform (c : Config) (fnt : Font) (r : Region) (x y : Nat) (cp : CodePoint) :
    (∀ fb, xorCharCore c fnt r x y cp fb = none) ∨
    ∃ adv m, ∀ fb, ∃ fb', xorCharCore c fnt r x y cp fb = some (fb', adv) ∧ XorBy m fb fb' := by
  unfold xorCharCore
  by_cases hr : regionOk c r = true
  · simp only [if_pos hr]
    cases glyphHeader fnt cp with
    | none => exact .inl fun _ => rfl
    | some hd =>
      by_cases hw : hd.width.toNat > maxGlyphWidth
      · exact .inr ⟨0, _, fun fb => ⟨fb, by simp [hw], XorBy.refl fb⟩⟩
      · simp only [if_neg hw, drawGlyph, forLoopM]
        rcases drawRows_uniform c fnt (glyphIndex fnt cp) hd.width.toNat (x + 1) (y + hd.yOffset.toNat)
          (effectiveHeight hd.height.toNat r.y1.toNat (y + hd.yOffset.toNat) - 0) with h | ⟨m, h⟩
        · exact .inl fun fb => by rw [h]
        · refine .inr ⟨hd.width.toNat + advancePad, m, fun fb => ?_⟩
          obtain ⟨fb', e, hx⟩ := h fb
          exact ⟨fb', by rw [e], hx⟩
  · exact .inr ⟨0, _, fun fb => ⟨fb, by simp [hr], XorBy.refl fb⟩⟩

end Sys2Proof.Machine
end

