-- ==== Sys2Proof/Laws/Encoding.lean ====
section
/-! SUPPORT. The fields of header and operand words read back what the encoder put there, and the other way round. -/

namespace Sys2Proof

/-! ### Slices of concatenations -/

theorem slice_append_hi {m n : Nat} (x : BitVec m) (y : BitVec n) : (x ++ y).extractLsb' n m = x := by
  ext i hi
  simp [BitVec.getLsbD_append, hi]

theorem slice_append_lo {m n : Nat} (x : BitVec m) (y : BitVec n) : (x ++ y).extractLsb' 0 n = y := by
  ext i hi
  simp [BitVec.getLsbD_append, hi]

theorem slice_append_above {m n : Nat} (x : BitVec m) (y : BitVec n) (a b : Nat) :
    (x ++ y).extractLsb' (n + a) b = x.extractLsb' a b := by
  ext i hi
  simp [BitVec.getLsbD_append, Nat.add_assoc]

theorem append_slices {m n : Nat} (w : BitVec (m + n)) : w.extractLsb' n m ++ w.extractLsb' 0 n = w := by
  ext i hi
  rw [BitVec.getElem_append]
  split
  · simp [BitVec.getLsbD_eq_getElem, hi]
  · rename_i h
    simp [show n + (i - n) = i by omega, BitVec.getLsbD_eq_getElem, hi]

/-! ### Header words (30_encoding.md R81) -/

theorem opField_headerWord (op : BitVec 4) (f : BitVec 2) (n : Nat) : opField (headerWord op f n) = op :=
  (slice_append_above (op ++ f ++ (0 : BitVec 10)) (BitVec.ofNat 16 n) 12 4).trans
    ((slice_append_above (op ++ f) (0 : BitVec 10) 2 4).trans (slice_append_hi op f))

theorem fontField_headerWord (op : BitVec 4) (f : BitVec 2) (n : Nat) : fontField (headerWord op f n) = f :=
  (slice_append_above (op ++ f ++ (0 : BitVec 10)) (BitVec.ofNat 16 n) 10 2).trans
    ((slice_append_above (op ++ f) (0 : BitVec 10) 0 2).trans (slice_append_lo op f))

theorem reservedField_headerWord (op : BitVec 4) (f : BitVec 2) (n : Nat) : reservedField (headerWord op f n) = 0 :=
  (slice_append_above (op ++ f ++ (0 : BitVec 10)) (BitVec.ofNat 16 n) 0 10).trans
    (slice_append_lo (op ++ f) (0 : BitVec 10))

theorem lenField_headerWord (op : BitVec 4) (f : BitVec 2) (n : Nat) : lenField (headerWord op f n) = n % 65536 := by
  have h : (headerWord op f n).extractLsb' 0 16 = BitVec.ofNat 16 n :=
    slice_append_lo (op ++ f ++ (0 : BitVec 10)) (BitVec.ofNat 16 n)
  unfold lenField
  rw [h]
  simp

theorem slice_slice {n : Nat} (w : BitVec n) {a b c d : Nat} (h : c + d ≤ b) :
    (w.extractLsb' a b).extractLsb' c d = w.extractLsb' (a + c) d := by
  ext i hi
  simp [Nat.add_assoc, show c + i < b by omega]

/-- A header word is its four fields, when the reserved one is 0. -/
theorem headerWord_fields (w : Word) (h : reservedField w = 0) :
    headerWord (opField w) (fontField w) (lenField w) = w := by
  have e1 : opField w ++ fontField w = w.extractLsb' 26 6 := by
    have := append_slices (m := 4) (n := 2) (w.extractLsb' 26 6)
    rwa [slice_slice w (by omega), slice_slice w (by omega)] at this
  have e2 : w.extractLsb' 26 6 ++ reservedField w = w.extractLsb' 16 16 := by
    have := append_slices (m := 6) (n := 10) (w.extractLsb' 16 16)
    rwa [slice_slice w (by omega), slice_slice w (by omega)] at this
  have e3 : w.extractLsb' 16 16 ++ w.extractLsb' 0 16 = w := append_slices (m := 16) (n := 16) w
  unfold headerWord lenField
  rw [BitVec.ofNat_toNat, BitVec.setWidth_eq, ← h, e1, e2, e3]

theorem lenField_lt (w : Word) : lenField w < 65536 := by
  unfold lenField; exact (w.extractLsb' 0 16).isLt

theorem lenField_eq_mod (w : Word) : lenField w = w.toNat % 2 ^ 16 := by
  simp [lenField, BitVec.extractLsb'_toNat]

/-! ### Operand words (30_encoding.md R82) -/

theorem hiHalf_halves (a b : Coord) : hiHalf (halves a b) = a := slice_append_hi a b

theorem loHalf_halves (a b : Coord) : loHalf (halves a b) = b := slice_append_lo a b

theorem halves_hi_lo (w : Word) : halves (hiHalf w) (loHalf w) = w := append_slices (m := 16) (n := 16) w

theorem isCH_chWord (cp : CodePoint) : isCH (chWord cp) = true := by
  have h : (chWord cp).extractLsb' 21 11 = 0 := slice_append_hi (0 : BitVec 11) cp
  simp [isCH, h]

theorem chPoint_chWord (cp : CodePoint) : chPoint (chWord cp) = cp := slice_append_lo (0 : BitVec 11) cp

theorem chWord_chPoint (w : Word) (h : isCH w = true) : chWord (chPoint w) = w := by
  have h' : w.extractLsb' 21 11 = 0 := by simpa [isCH] using h
  have := append_slices (m := 11) (n := 21) w
  unfold chWord chPoint
  rw [← h']
  exact this

theorem isCH_iff (w : Word) : isCH w = true ↔ w.toNat < 2 ^ 21 := by
  have h : (w.extractLsb' 21 11).toNat = w.toNat / 2 ^ 21 := by
    rw [BitVec.extractLsb'_toNat, Nat.shiftRight_eq_div_pow, Nat.mod_eq_of_lt]
    have := w.isLt
    omega
  unfold isCH
  rw [beq_iff_eq, ← BitVec.toNat_inj, h]
  simp

theorem regionOf_words (r : Region) : regionOf (xbWord r) (ybWord r) = r := by
  simp [regionOf, xbWord, ybWord, hiHalf_halves, loHalf_halves]

theorem xbWord_regionOf (xb yb : Word) : xbWord (regionOf xb yb) = xb := halves_hi_lo xb

theorem ybWord_regionOf (xb yb : Word) : ybWord (regionOf xb yb) = yb := halves_hi_lo yb

theorem fontOf_fontBits (f : FontNo) : fontOf (fontBits f) = some f := by
  cases f <;> rfl

theorem fontBits_fontOf (b : BitVec 2) (f : FontNo) (h : fontOf b = some f) : fontBits f = b := by
  have hb : b = 0 ∨ b = 1 ∨ b = 2 ∨ b = 3 := by clear h; revert b; decide
  rcases hb with rfl | rfl | rfl | rfl <;> cases f <;> simp_all [fontOf, fontBits]

theorem chars_all (str : List CodePoint) : (str.map chWord).all isCH = true := by
  simp [isCH_chWord]

theorem chars_map (str : List CodePoint) : (str.map chWord).map chPoint = str := by
  simp [Function.comp_def, chPoint_chWord]

theorem words_of_chars (chs : List Word) (h : chs.all isCH = true) : (chs.map chPoint).map chWord = chs := by
  rw [List.all_eq_true] at h
  rw [List.map_map]
  conv_rhs => rw [← List.map_id chs]
  apply List.map_congr_left
  intro w hw
  exact chWord_chPoint w (h w hw)

/-! ### The decoder's own steps -/

/-- A command that takes a font and is accepted has a font (30_encoding.md R86). -/
theorem withFont_ok {w0 : Word} {k : FontNo → Except Illegal Instr} {i : Instr} (h : withFont w0 k = .ok i) :
    ∃ f, fontField w0 = fontBits f ∧ k f = .ok i := by
  unfold withFont at h
  split at h
  · rename_i f hf
    exact ⟨f, (fontBits_fontOf _ _ hf).symm, h⟩
  · cases h

/-- A command that takes no font and is accepted has FONT = 0 (30_encoding.md R86). -/
theorem withoutFont_ok {w0 : Word} {k : Except Illegal Instr} {i : Instr} (h : withoutFont w0 k = .ok i) :
    fontField w0 = 0 ∧ k = .ok i := by
  unfold withoutFont at h
  split at h
  · exact ⟨‹_›, h⟩
  · cases h

/-- What is decoded at all is a complete command (30_encoding.md R80). -/
theorem decode_ok_complete {wpl : Nat} {ws : List Word} {i : Instr} (h : decode wpl ws = .ok i) :
    ∃ w0 ops, ws = w0 :: ops ∧ ops.length = lenField w0 ∧ decodeCommand wpl w0 ops = .ok i := by
  unfold decode at h
  split at h
  · cases h
  · split at h
    · exact ⟨_, _, rfl, ‹_›, h⟩
    · cases h

end Sys2Proof
end

