-- ==== Sys2Proof/Laws/Glyphs.lean ====
section
/-! SUPPORT. What the glyph lookup and the header slices give (40_glyphstore.md R110, R111), the Region check as a
proposition (00_scope.md R8), and a finite check that a font meets WF-FONT clauses 1 and 2 (10_state.md R25). -/

namespace Sys2Proof.Machine

/-! ### Operand checks -/

theorem regionOk_iff (c : Config) (r : Region) :
    regionOk c r = true ↔
      r.x1.toNat ≤ c.lineWidth ∧ r.y1.toNat ≤ c.lines ∧ r.x0.toNat < r.x1.toNat ∧ r.y0.toNat < r.y1.toNat := by
  simp [regionOk, and_assoc]

theorem outlineOk_iff (c : Config) (y0 y1 : Nat) :
    outlineOk c y0 y1 = true ↔ y0 < y1 ∧ y1 ≤ c.lines ∧ 6 ≤ y1 - y0 := by
  simp [outlineOk, outlineMinHeight, and_assoc]

/-- The bounds that admitted parameters meet (00_scope.md R5). -/
theorem config_bounds {c : Config} (h : c.ok = true) :
    1 ≤ c.wpl ∧ c.wpl ≤ 2047 ∧ 1 ≤ c.lines ∧ c.lines ≤ 65535 ∧ 1 ≤ c.lineWidth ∧ c.lineWidth ≤ 32 * c.wpl := by
  simp only [Config.ok, Bool.and_eq_true, decide_eq_true_eq] at h
  omega

/-! ### Header fields (40_glyphstore.md R110) -/

theorem header_width (hw : Word) : (header hw).width.toNat = hw.toNat / 2 ^ 16 % 256 := by
  simp [header, BitVec.extractLsb'_toNat, Nat.shiftRight_eq_div_pow]

theorem header_height (hw : Word) : (header hw).height.toNat = hw.toNat / 2 ^ 8 % 256 := by
  simp [header, BitVec.extractLsb'_toNat, Nat.shiftRight_eq_div_pow]

theorem header_yOffset (hw : Word) : (header hw).yOffset.toNat = hw.toNat % 256 := by
  simp [header, BitVec.extractLsb'_toNat]

/-! ### Range lookup (40_glyphstore.md R111) -/

/-- A range answers exactly inside its bounds. -/
theorem rangeLookup_eq_none (g : GlyphRange) (c : Nat) :
    rangeLookup g c = none ↔ ¬ (g.lo ≤ c ∧ c < g.lo + g.table.length) := by
  unfold rangeLookup
  split
  · rw [List.getElem?_eq_none_iff]; omega
  · simp; omega

/-- Ranges that do not hold the character are passed over. -/
theorem rangesLookup_append {c : Nat} (pre rest : List GlyphRange) (h : ∀ g ∈ pre, rangeLookup g c = none) :
    rangesLookup (pre ++ rest) c = rangesLookup rest c := by
  induction pre with
  | nil => rfl
  | cons g pre ih => simp [rangesLookup, h g (by simp), ih fun x hx => h x (by simp [hx])]

/-- What a lookup answers is an entry of some range's table. -/
theorem rangesLookup_mem {c : Nat} {off : Word} :
    ∀ {gs : List GlyphRange}, rangesLookup gs c = some off → ∃ g ∈ gs, off ∈ g.table
  | [], h => by cases h
  | g :: gs, h => by
    simp only [rangesLookup] at h
    split at h
    · rename_i off' hr
      cases h
      refine ⟨g, by simp, ?_⟩
      unfold rangeLookup at hr
      split at hr
      · exact List.mem_of_getElem? hr
      · cases hr
    · obtain ⟨g', hg, hm⟩ := rangesLookup_mem h
      exact ⟨g', by simp [hg], hm⟩

/-- Every glyph offset is `REPL_f` or an entry of a table. -/
theorem glyphOffset_mem (fnt : Font) (cp : CodePoint) :
    glyphOffset fnt cp = fnt.repl ∨ ∃ g ∈ fnt.ranges, glyphOffset fnt cp ∈ g.table := by
  unfold glyphOffset
  cases h : rangesLookup fnt.ranges cp.toNat with
  | none => exact .inl rfl
  | some off => exact .inr (rangesLookup_mem h)

/-- The glyph record at an offset lies inside the font's data. -/
def recordReadable (fnt : Font) (off : Word) : Bool :=
  match fontRead fnt off.toNat with
  | none => false
  | some hw => decide (off.toNat + payloadWords (header hw) < fnt.len)

/-- WF-FONT clauses 1 and 2 from finitely many checks: the replacement glyph's record and the record of every table
entry. -/
theorem fontReadable_of_records {fnt : Font} (h0 : recordReadable fnt fnt.repl = true)
    (h : fnt.ranges.all (fun g => g.table.all (recordReadable fnt)) = true) : fontReadable fnt := by
  intro cp
  have hr : recordReadable fnt (glyphOffset fnt cp) = true := by
    rcases glyphOffset_mem fnt cp with e | ⟨g, hg, hm⟩
    · rw [e]; exact h0
    · exact List.all_eq_true.1 (List.all_eq_true.1 h g hg) _ hm
  unfold recordReadable at hr
  unfold glyphReadable glyphHeader glyphIndex
  cases hf : fontRead fnt (glyphOffset fnt cp).toNat with
  | none => rw [hf] at hr; cases hr
  | some hw => rw [hf] at hr; exact hr

end Sys2Proof.Machine
end

