-- ==== Sys2Proof/Laws/Regions.lean ====
section
/-! SUPPORT. What the double loop of `CLEAR` and `INVERT` and the line assignment of `OUTLINE` and `LINEFILL` do to
the pixels (43_region.md R152, R153, R156, R158). -/

namespace Sys2Proof.Machine

/-- An accessor that combines a word with a mask bit by bit: `FbXor` and `FbOr` (20_memory.md R57). -/
structure MaskAccess (c : Config) (access : Nat → Nat → Word → List Word → List Word) (g : Bool → Bool) : Prop where
  length : ∀ line wl m fb, (access line wl m fb).length = fb.length
  pixel : ∀ {fb : List Word}, Memory.wf c fb = true → ∀ (line wl : Nat) (m : Word) {px py : Nat},
    px < 32 * c.wpl → py < c.lines →
      Sys2Proof.Machine.pixel c (access line wl m fb) px py =
        if line = py ∧ wl = px / 32 ∧ wordPixel m (px % 32) = true then g (Sys2Proof.Machine.pixel c fb px py)
        else Sys2Proof.Machine.pixel c fb px py

theorem maskAccess_fbXor (c : Config) : MaskAccess c (fbXor c) (fun b => !b) where
  length := by simp
  pixel := by
    intro fb hwf line wl m px py hx hy
    rw [pixel_fbXor hwf line wl m hx hy]
    by_cases h1 : line = py ∧ wl = px / 32
    · cases hm : wordPixel m (px % 32) <;> simp [h1]
    · rw [if_neg (fun h => h1 ⟨h.1, h.2.1⟩)]; simp [h1]

theorem maskAccess_fbOr (c : Config) : MaskAccess c (fbOr c) (fun _ => true) where
  length := by simp
  pixel := by
    intro fb hwf line wl m px py hx hy
    rw [pixel_fbOr hwf line wl m hx hy]
    by_cases h1 : line = py ∧ wl = px / 32
    · cases hm : wordPixel m (px % 32) <;> simp [h1]
    · rw [if_neg (fun h => h1 ⟨h.1, h.2.1⟩)]; simp [h1]

/-- The inner loop: the words `lo .. hi` of line `py`, each with its mask. -/
theorem pixel_wordLoop {c : Config} {access : Nat → Nat → Word → List Word → List Word} {g : Bool → Bool}
    (ha : MaskAccess c access g) (line : Nat) (mask : Nat → Word) {a b : Nat} (hab : a ≤ b) {fb : List Word}
    (hwf : Memory.wf c fb = true) :
    (forLoop a b (fun wl => access line wl (mask wl)) fb).length = fb.length ∧
    ∀ px py, px < 32 * c.wpl → py < c.lines →
      pixel c (forLoop a b (fun wl => access line wl (mask wl)) fb) px py =
        if line = py ∧ a ≤ px / 32 ∧ px / 32 < b ∧ wordPixel (mask (px / 32)) (px % 32) = true then g (pixel c fb px py)
        else pixel c fb px py := by
  refine forLoop_induct (fun k fb' => fb'.length = fb.length ∧ ∀ px py, px < 32 * c.wpl → py < c.lines →
      pixel c fb' px py =
        if line = py ∧ a ≤ px / 32 ∧ px / 32 < k ∧ wordPixel (mask (px / 32)) (px % 32) = true then g (pixel c fb px py)
        else pixel c fb px py) _ hab fb ⟨rfl, fun px py _ _ => ?_⟩ ?_
  · rw [if_neg (by omega)]
  · rintro k fb' h1 h2 ⟨hl, hp⟩
    refine ⟨(ha.length _ _ _ _).trans hl, fun px py hx hy => ?_⟩
    rw [ha.pixel (fb_wf_of_length hl hwf) line k (mask k) hx hy, hp px py hx hy]
    by_cases hk : k = px / 32
    · subst hk
      by_cases hm : line = py ∧ wordPixel (mask (px / 32)) (px % 32) = true
      · simp [hm, h1]
      · rw [if_neg (fun h => hm ⟨h.1, h.2.2⟩), if_neg (by omega), if_neg (fun h => hm ⟨h.1, h.2.2.2⟩)]
    · rw [if_neg (fun h => hk h.2.1)]
      by_cases hc : line = py ∧ a ≤ px / 32 ∧ px / 32 < k ∧ wordPixel (mask (px / 32)) (px % 32) = true
      · rw [if_pos hc, if_pos ⟨hc.1, hc.2.1, by omega, hc.2.2.2⟩]
      · rw [if_neg hc, if_neg (fun h => hc ⟨h.1, h.2.1, by omega, h.2.2.2⟩)]

/-- The double loop of `CLEAR` and `INVERT`: the lines `y0 .. y1`, the words `lo .. hi`, each with its mask. -/
theorem pixel_overRegion {c : Config} {access : Nat → Nat → Word → List Word → List Word} {g : Bool → Bool}
    (ha : MaskAccess c access g) (r : Region) (hy01 : r.y0.toNat ≤ r.y1.toNat)
    (hlohi : maskLo r.x0.toNat ≤ maskHi r.x1.toNat) {fb : List Word} (hwf : Memory.wf c fb = true) :
    (overRegion access r fb).length = fb.length ∧
    ∀ px py, px < 32 * c.wpl → py < c.lines →
      pixel c (overRegion access r fb) px py =
        if r.y0.toNat ≤ py ∧ py < r.y1.toNat ∧ maskLo r.x0.toNat ≤ px / 32 ∧ px / 32 ≤ maskHi r.x1.toNat ∧
            wordPixel (columnMask r.x0.toNat r.x1.toNat (px / 32)) (px % 32) = true then g (pixel c fb px py)
        else pixel c fb px py := by
  refine forLoop_induct (fun k fb' => fb'.length = fb.length ∧ ∀ px py, px < 32 * c.wpl → py < c.lines →
      pixel c fb' px py =
        if r.y0.toNat ≤ py ∧ py < k ∧ maskLo r.x0.toNat ≤ px / 32 ∧ px / 32 ≤ maskHi r.x1.toNat ∧
            wordPixel (columnMask r.x0.toNat r.x1.toNat (px / 32)) (px % 32) = true then g (pixel c fb px py)
        else pixel c fb px py) _ hy01 fb ⟨rfl, fun px py _ _ => ?_⟩ ?_
  · rw [if_neg (by omega)]
  · rintro k fb' h1 h2 ⟨hl, hp⟩
    obtain ⟨hl2, hp2⟩ := pixel_wordLoop ha k (columnMask r.x0.toNat r.x1.toNat)
      (show maskLo r.x0.toNat ≤ maskHi r.x1.toNat + 1 by omega) (fb_wf_of_length hl hwf)
    refine ⟨hl2.trans hl, fun px py hx hy => ?_⟩
    rw [hp2 px py hx hy, hp px py hx hy]
    by_cases hk : k = py
    · subst hk
      rw [if_neg (show ¬ (r.y0.toNat ≤ k ∧ k < k ∧ _) from fun h => by omega)]
      by_cases hm : maskLo r.x0.toNat ≤ px / 32 ∧ px / 32 ≤ maskHi r.x1.toNat ∧
          wordPixel (columnMask r.x0.toNat r.x1.toNat (px / 32)) (px % 32) = true
      · rw [if_pos ⟨rfl, hm.1, by omega, hm.2.2⟩, if_pos ⟨h1, by omega, hm⟩]
      · rw [if_neg (fun h => hm ⟨h.2.1, by omega, h.2.2.2⟩), if_neg (fun h => hm h.2.2)]
    · rw [if_neg (fun h => hk h.1)]
      by_cases hc : r.y0.toNat ≤ py ∧ py < k ∧ maskLo r.x0.toNat ≤ px / 32 ∧ px / 32 ≤ maskHi r.x1.toNat ∧
            wordPixel (columnMask r.x0.toNat r.x1.toNat (px / 32)) (px % 32) = true
      · rw [if_pos hc, if_pos ⟨hc.1, by omega, hc.2.2⟩]
      · rw [if_neg hc, if_neg (fun h => hc ⟨h.1, by omega, h.2.2⟩)]

theorem overRegion_length {access : Nat → Nat → Word → List Word → List Word}
    (h : ∀ line wl m fb, (access line wl m fb).length = fb.length) (r : Region) (fb : List Word) :
    (overRegion access r fb).length = fb.length :=
  forLoop_keeps (fun fb' => fb'.length = fb.length) _ _ _ fb rfl fun _ y hy =>
    forLoop_keeps (fun fb' => fb'.length = fb.length) _ _ _ y hy fun _ _ hz => (h _ _ _ _).trans hz

@[simp] theorem setLine_length (c : Config) (py : Nat) (word : Nat → Word) (fb : List Word) :
    (setLine c py word fb).length = fb.length :=
  forLoop_keeps (fun fb' => fb'.length = fb.length) _ _ _ fb rfl fun _ _ hz => (fbSet_length _ _ _ _ _).trans hz

/-- Assigning a line: the pixels of that line are those of the words, every other pixel is unchanged. -/
theorem pixel_setLine {c : Config} {fb : List Word} (hwf : Memory.wf c fb = true) (line : Nat) (word : Nat → Word)
    {px py : Nat} (hx : px < 32 * c.wpl) (hy : py < c.lines) :
    pixel c (setLine c line word fb) px py =
      if line = py then wordPixel (word (px / 32)) (px % 32) else pixel c fb px py := by
  have := forLoop_induct (fun k fb' => fb'.length = fb.length ∧
      pixel c fb' px py = if line = py ∧ px / 32 < k then wordPixel (word (px / 32)) (px % 32) else pixel c fb px py)
    (fun wl => fbSet c line wl (word wl)) (Nat.zero_le c.wpl) fb ⟨rfl, by simp⟩ (by
      rintro k fb' h1 h2 ⟨hl, hp⟩
      refine ⟨(fbSet_length _ _ _ _ _).trans hl, ?_⟩
      rw [pixel_fbSet (fb_wf_of_length hl hwf) line k (word k) hx hy, hp]
      by_cases hk : k = px / 32
      · subst hk
        by_cases hline : line = py <;> simp [hline]
      · by_cases hc : line = py ∧ px / 32 < k
        · rw [if_neg (fun h => hk h.2), if_pos hc, if_pos ⟨hc.1, by omega⟩]
        · rw [if_neg (fun h => hk h.2), if_neg hc, if_neg (fun h => hc ⟨h.1, by omega⟩)])
  unfold setLine
  rw [this.2]
  have : px / 32 < c.wpl := by omega
  simp [this]

/-- Pixel `j` of a packed word. -/
theorem wordPixel_packWord (f : Nat → Bool) {j : Nat} (hj : j < 32) : wordPixel (packWord f) j = f j := by
  have := iterate_induct (fun k w => ∀ i, i < 32 → wordPixel w i = (decide (i < k) && f i))
    (fun k w => if f k then w ||| BitVec.ofNat 32 (1 <<< (31 - k)) else w) 0 32 0
    (fun i _ => by simp)
    (by
      intro k w _ hk h i hi
      have hbit : wordPixel (BitVec.ofNat 32 (1 <<< (31 - k))) i = decide (i = k) := by
        unfold wordPixel
        rw [BitVec.getLsbD_ofNat, Nat.one_shiftLeft, Nat.testBit_two_pow]
        simp only [show 31 - i < 32 by omega, decide_true, Bool.true_and, decide_eq_decide]
        omega
      by_cases hf : f k = true
      · simp only [hf, if_true, wordPixel_or, h i hi, hbit]
        by_cases hik : i = k
        · subst hik; simp [hf]
        · simp only [hik, decide_false, Bool.or_false]
          congr 1
          rw [decide_eq_decide]; omega
      · simp only [hf, Bool.false_eq_true, if_false]
        rw [h i hi]
        by_cases hik : i = k
        · subst hik; simp [hf]
        · congr 1
          rw [decide_eq_decide]; omega)
  have h := this j hj
  unfold packWord
  rw [h]
  simp [hj]

/-- Column `p` of a scanline pattern's words (43_region.md R155). -/
theorem wordPixel_patternWord (line : Nat → Bool) (p : Nat) :
    wordPixel (patternWord line (p / 32)) (p % 32) = line p := by
  unfold patternWord
  rw [wordPixel_packWord _ (Nat.mod_lt _ (by omega)), Nat.div_add_mod]

/-! ### INVERT as an XOR with fixed words -/

/-- A loop of bodies that each XOR the same words into every frame buffer does so as a whole. -/
theorem iterate_xorBy {body : Nat → List Word → List Word} (h : ∀ k, ∃ m, ∀ fb, XorBy m fb (body k fb)) (a n : Nat) :
    ∃ m, ∀ fb, XorBy m fb (iterate body a n fb) := by
  induction n with
  | zero => exact ⟨_, XorBy.refl⟩
  | succ n ih =>
    obtain ⟨m, hm⟩ := ih
    obtain ⟨m', hm'⟩ := h (a + n)
    exact ⟨_, fun fb => (hm fb).trans (hm' _)⟩

/-- `INVERT` XORs words that depend on the Region alone (43_region.md R153). -/
theorem overRegion_xorBy (c : Config) (r : Region) : ∃ m, ∀ fb, XorBy m fb (overRegion (fbXor c) r fb) :=
  iterate_xorBy (fun k => iterate_xorBy (fun wl => fbXor_xorBy c k wl _) _ _) _ _

end Sys2Proof.Machine
end

