-- ==== Sys2Proof/Laws/Strings.lean ====
section
/-! SUPPORT. The character loops of `DRAWSTR` and `STRWIDTH` (42_string.md R140, R142). -/

namespace Sys2Proof.Machine

/-- The sum of the advances of a string's characters. -/
def advanceSum (c : Config) (fnt : Font) (r : Region) (str : List CodePoint) : Nat :=
  (str.map (drawnAdvance c fnt r)).sum

/-- A string of readable characters is drawn: the total is the sum of the advances, the pixels are those of
`stringFlips`. -/
theorem drawChars_readable {c : Config} {fnt : Font} (r : Region) (y : Nat) :
    ∀ (str : List CodePoint) (ax : Nat) (fb : List Word), (∀ cp ∈ str, glyphReadable fnt cp = true) →
      ∃ fb', drawChars c fnt r y str ax fb = some (fb', advanceSum c fnt r str) ∧ fb'.length = fb.length ∧
        (Memory.wf c fb = true → ∀ px py, px < 32 * c.wpl → py < c.lines →
          pixel c fb' px py = xor (pixel c fb px py) (stringFlips c fnt r y str ax px py))
  | [], ax, fb, _ => ⟨fb, rfl, rfl, fun _ px py _ _ => by simp [stringFlips]⟩
  | cp :: cps, ax, fb, h => by
    obtain ⟨fb1, e1, l1, p1⟩ := xorCharCore_readable (c := c) (h cp (by simp)) r ax y fb
    obtain ⟨fb2, e2, l2, p2⟩ := drawChars_readable (c := c) r y cps (ax + drawnAdvance c fnt r cp) fb1
      (fun x hx => h x (by simp [hx]))
    refine ⟨fb2, by simp [drawChars, e1, e2, advanceSum], l2.trans l1, fun hwf px py hx hy => ?_⟩
    rw [p2 (fb_wf_of_length l1 hwf) px py hx hy, p1 hwf px py hx hy, stringFlips, Bool.xor_assoc]

theorem drawChars_length {c : Config} {fnt : Font} {r : Region} {y : Nat} :
    ∀ (str : List CodePoint) {ax : Nat} {fb fb' : List Word} {total : Nat},
      drawChars c fnt r y str ax fb = some (fb', total) → fb'.length = fb.length
  | [], _, _, _, _, h => by cases h; rfl
  | cp :: cps, ax, fb, fb', total, h => by
    simp only [drawChars] at h
    split at h
    · cases h
    rename_i fb1 adv h1
    split at h
    · cases h
    rename_i fb2 t2 h2
    cases h
    exact (drawChars_length cps h2).trans (xorCharCore_length h1)

/-- A string's draw is refused on every frame buffer, or has one total and XORs the same words into every one. -/
theorem drawChars_uniform (c : Config) (fnt : Font) (r : Region) (y : Nat) :
    ∀ (str : List CodePoint) (ax : Nat), (∀ fb, drawChars c fnt r y str ax fb = none) ∨
      ∃ total m, ∀ fb, ∃ fb', drawChars c fnt r y str ax fb = some (fb', total) ∧ XorBy m fb fb'
  | [], _ => .inr ⟨0, _, fun fb => ⟨fb, rfl, XorBy.refl fb⟩⟩
  | cp :: cps, ax => by
    rcases xorCharCore_uniform c fnt r ax y cp with h1 | ⟨adv, m1, h1⟩
    · exact .inl fun fb => by simp [drawChars, h1]
    rcases drawChars_uniform c fnt r y cps (ax + adv) with h2 | ⟨t2, m2, h2⟩
    · left
      intro fb
      obtain ⟨fb1, e1, -⟩ := h1 fb
      simp [drawChars, e1, h2]
    · refine .inr ⟨adv + t2, fun i => m1 i ^^^ m2 i, fun fb => ?_⟩
      obtain ⟨fb1, e1, x1⟩ := h1 fb
      obtain ⟨fb2, e2, x2⟩ := h2 fb1
      exact ⟨fb2, by simp [drawChars, e1, e2], x1.trans x2⟩

/-- The width sum of a string all of whose headers exist. -/
theorem widthSum_eq {fnt : Font} {width : CodePoint → Nat} :
    ∀ (str : List CodePoint), (∀ cp ∈ str, charWidth fnt cp = some (width cp)) →
      widthSum fnt str = some (str.map fun cp => width cp + 3).sum
  | [], _ => rfl
  | cp :: cps, h => by
    have h1 := h cp (by simp)
    have h2 := widthSum_eq cps fun x hx => h x (by simp [hx])
    simp [widthSum, h1, h2, advancePad]

/-- The width sum does not exist exactly when some header does not. -/
theorem widthSum_eq_none {fnt : Font} :
    ∀ (str : List CodePoint), widthSum fnt str = none ↔ ∃ cp ∈ str, glyphHeader fnt cp = none
  | [] => by simp [widthSum]
  | cp :: cps => by
    have ih := widthSum_eq_none (fnt := fnt) cps
    cases hh : glyphHeader fnt cp with
    | none => simp [widthSum, charWidth, hh]
    | some hd =>
      cases hs : widthSum fnt cps with
      | none => simp [widthSum, charWidth, hh, hs, ih.1 hs]
      | some t =>
        have hno : ¬ ∃ cp ∈ cps, glyphHeader fnt cp = none := fun h => by rw [ih.2 h] at hs; cases hs
        simp [widthSum, charWidth, hh, hs]
        intro x hx hn
        exact hno ⟨x, hx, hn⟩

end Sys2Proof.Machine
end

