-- ==== Sys2Proof/Laws/Memory.lean ====
section
/-! SUPPORT. Every memory operation keeps the frame buffer's one form, and reset has it (10_state.md R21; log 3). -/

namespace Sys2Proof.Machine

variable {c : Config} {fb : List Word}

theorem wf_iff (c : Config) (fb : List Word) : Memory.wf c fb = true ↔ fb.length = c.fbWords := by
  simp [Memory.wf]

theorem fbWrite_wf (h : Memory.wf c fb = true) (i : Nat) (v : Word) : Memory.wf c (fbWrite fb i v) = true :=
  fb_wf_of_length (fbWrite_length fb i v) h

theorem fbXor_wf (h : Memory.wf c fb = true) (line wl : Nat) (m : Word) : Memory.wf c (fbXor c line wl m fb) = true :=
  fb_wf_of_length (fbXor_length c line wl m fb) h

theorem fbOr_wf (h : Memory.wf c fb = true) (line wl : Nat) (m : Word) : Memory.wf c (fbOr c line wl m fb) = true :=
  fb_wf_of_length (fbOr_length c line wl m fb) h

theorem fbSet_wf (h : Memory.wf c fb = true) (line wl : Nat) (v : Word) : Memory.wf c (fbSet c line wl v fb) = true :=
  fb_wf_of_length (fbSet_length c line wl v fb) h

theorem xorRow_wf (h : Memory.wf c fb = true) (line dx w : Nat) (pat : Word) :
    Memory.wf c (xorRow c line dx w pat fb) = true :=
  fb_wf_of_length (xorRow_length c line dx w pat fb) h

theorem setLine_wf (h : Memory.wf c fb = true) (py : Nat) (word : Nat → Word) :
    Memory.wf c (setLine c py word fb) = true :=
  fb_wf_of_length (setLine_length c py word fb) h

theorem overRegion_fbXor_wf (h : Memory.wf c fb = true) (r : Region) : Memory.wf c (overRegion (fbXor c) r fb) = true :=
  fb_wf_of_length (overRegion_length (fbXor_length c) r fb) h

theorem overRegion_fbOr_wf (h : Memory.wf c fb = true) (r : Region) : Memory.wf c (overRegion (fbOr c) r fb) = true :=
  fb_wf_of_length (overRegion_length (fbOr_length c) r fb) h

theorem xorCharCore_wf {fnt : Font} {r : Region} {x y adv : Nat} {cp : CodePoint} {fb' : List Word}
    (h : Memory.wf c fb = true) (e : xorCharCore c fnt r x y cp fb = some (fb', adv)) : Memory.wf c fb' = true :=
  fb_wf_of_length (xorCharCore_length e) h

theorem drawChars_wf {fnt : Font} {r : Region} {x y total : Nat} {str : List CodePoint} {fb' : List Word}
    (h : Memory.wf c fb = true) (e : drawChars c fnt r y str x fb = some (fb', total)) : Memory.wf c fb' = true :=
  fb_wf_of_length (drawChars_length str e) h

theorem freeFb_wf (c : Config) (n : Nat) : Memory.wf c (c.freeFb n) = true :=
  (wf_iff c _).2 (Config.freeFb_length c n)

/-- The frame buffer after reset has the form. -/
theorem reset_fb_wf : Memory.wf State.reset.cfg State.reset.fb = true := by
  simp [Memory.wf, State.reset, Config.freeFb_length]

end Sys2Proof.Machine
end

