-- ==== Sys2Proof/Laws/PerInstr.lean ====
section
/-! SUPPORT. A statement about every command as syntax, one lemma per constructor. -/

namespace Sys2Proof.Laws.EncodeFraming

/-- A well-formed command's encoding is one header, whose reserved bits are 0 and whose LEN is the number of the words
that follow it (30_encoding.md R80, R81, R83). -/
def Statement (i : Instr) : Prop :=
  ∀ wpl : Nat, wpl ≤ 2047 → i.wellFormed wpl = true →
    ∃ w0 ops, encode i = w0 :: ops ∧ reservedField w0 = 0 ∧ lenField w0 = ops.length

theorem of_header {i : Instr} {op : BitVec 4} {f : BitVec 2} {n : Nat} {ops : List Word}
    (h : encode i = headerWord op f n :: ops) (hn : n = ops.length) (hlt : n < 65536) :
    ∃ w0 ops, encode i = w0 :: ops ∧ reservedField w0 = 0 ∧ lenField w0 = ops.length :=
  ⟨_, ops, h, reservedField_headerWord op f n, by rw [lenField_headerWord, Nat.mod_eq_of_lt hlt, hn]⟩

theorem xorchar (f : FontNo) (r : Region) (x y : Coord) (cp : CodePoint) : Statement (.xorchar f r x y cp) :=
  fun _ _ _ => of_header rfl rfl (by decide)

theorem drawstr (f : FontNo) (r : Region) (x y : Coord) (str : List CodePoint) :
    Statement (.drawstr f r x y str) := fun _ _ h => by
  have hl : str.length ≤ 65532 := by simpa [Instr.wellFormed] using h
  exact of_header rfl (by simp; omega) (by omega)

theorem strwidth (f : FontNo) (str : List CodePoint) : Statement (.strwidth f str) := fun _ _ h => by
  have hl : str.length ≤ 65535 := by simpa [Instr.wellFormed] using h
  exact of_header rfl (by simp) (by omega)

theorem clear (r : Region) : Statement (.clear r) := fun _ _ _ => of_header rfl rfl (by decide)

theorem invert (r : Region) : Statement (.invert r) := fun _ _ _ => of_header rfl rfl (by decide)

theorem outline (y0 y1 : Coord) : Statement (.outline y0 y1) := fun _ _ _ => of_header rfl rfl (by decide)

theorem linefill (y : Coord) (pat : List Word) : Statement (.linefill y pat) := fun wpl hw h => by
  have hl : pat.length = wpl := by simpa [Instr.wellFormed] using h
  exact of_header rfl (by simp; omega) (by omega)

theorem goff (f : FontNo) (cp : CodePoint) : Statement (.goff f cp) := fun _ _ _ => of_header rfl rfl (by decide)

theorem ghdr (f : FontNo) (index : Word) : Statement (.ghdr f index) := fun _ _ _ => of_header rfl rfl (by decide)

end Sys2Proof.Laws.EncodeFraming
end

