-- ==== Sys2Proof/Laws/Step.lean ====
section
/-! SUPPORT. What one command and one step can do, said once: the inversion lemmas that whole-machine claims cite
instead of unfolding `exec` and `step`. -/

namespace Sys2Proof.Machine

/-- The end of a drawing command, when it completes. -/
theorem finishDraw_next {f : FontNo} {s t : State} {o : Option (List Word × Nat)} (h : finishDraw f s o = .next t) :
    ∃ fb adv, o = some (fb, adv) ∧ t = (s.withFb fb).withResult (BitVec.ofNat 32 adv) := by
  cases o with
  | none => cases h
  | some p => cases h; exact ⟨p.1, p.2, rfl, rfl⟩

/-- What a command that completes does: a new frame buffer of the same length, a new RESULT, nothing else. -/
theorem exec_next {i : Instr} {s t : State} (h : exec i s = .next t) :
    ∃ fb v, t = (s.withFb fb).withResult v ∧ fb.length = s.fb.length := by
  have same : ∀ v, s.withResult v = (s.withFb s.fb).withResult v := fun _ => rfl
  have keep : ∀ fb, s.withFb fb = (s.withFb fb).withResult s.result := fun _ => rfl
  cases i with
  | xorchar f r x y cp =>
    obtain ⟨fb, adv, e, rfl⟩ := finishDraw_next h
    exact ⟨fb, _, rfl, xorCharCore_length e⟩
  | drawstr f r x y str =>
    obtain ⟨fb, adv, e, rfl⟩ := finishDraw_next h
    exact ⟨fb, _, rfl, drawChars_length str e⟩
  | strwidth f str =>
    simp only [exec, execStrwidth] at h
    split at h
    · cases h; exact ⟨_, _, same _, rfl⟩
    · split at h
      · cases h; exact ⟨_, _, same _, rfl⟩
      · cases h
  | clear r =>
    simp only [exec, execClear, reject] at h
    split at h
    · cases h; exact ⟨_, _, keep _, overRegion_length (fbOr_length s.cfg) r s.fb⟩
    · cases h; exact ⟨_, _, keep _, rfl⟩
  | invert r =>
    simp only [exec, execInvert, reject] at h
    split at h
    · cases h; exact ⟨_, _, keep _, overRegion_length (fbXor_length s.cfg) r s.fb⟩
    · cases h; exact ⟨_, _, keep _, rfl⟩
  | outline y0 y1 =>
    simp only [exec, execOutline, reject] at h
    split at h
    · cases h
      exact ⟨_, _, keep _, forLoop_keeps (fun fb' => fb'.length = s.fb.length) _ _ _ s.fb rfl
        fun _ _ hz => (setLine_length _ _ _ _).trans hz⟩
    · cases h; exact ⟨_, _, keep _, rfl⟩
  | linefill y pat =>
    simp only [exec, execLinefill, reject] at h
    split at h
    · cases h; exact ⟨_, _, keep _, setLine_length _ _ _ _⟩
    · cases h; exact ⟨_, _, keep _, rfl⟩
  | goff f cp =>
    cases h; exact ⟨_, _, same _, rfl⟩
  | ghdr f index =>
    simp only [exec, execGhdr, rejectZero] at h
    split at h <;> cases h <;> exact ⟨_, _, same _, rfl⟩

/-- What a step that completes has done: idled, filled CBUF, run a command, discarded an illegal one, answered a read or
ignored a write, written an FB word, or reset. -/
theorem step_next {s t : State} (h : step s = .next t) :
    (s.input = [] ∧ t = s) ∨
    ∃ m ms, s.input = m :: ms ∧
      ((∃ v, m = .regWrite .cmd v ∧
          ((commandComplete (s.cbuf ++ [v]) = false ∧ t = (s.withInput ms).withCbuf (s.cbuf ++ [v])) ∨
           (commandComplete (s.cbuf ++ [v]) = true ∧ ∃ i, decode s.cfg.wpl (s.cbuf ++ [v]) = .ok i ∧
              exec i ((s.withInput ms).withCbuf []) = .next t) ∨
           (commandComplete (s.cbuf ++ [v]) = true ∧ (∃ e, decode s.cfg.wpl (s.cbuf ++ [v]) = .error e) ∧
              t = (((s.withInput ms).withCbuf []).withResult 0).withIll true))) ∨
       (∃ d, t = (s.withInput ms).withReadData d) ∨
       (∃ j v, m = .fbWrite j v ∧ j < s.cfg.fbWords ∧ t = (s.withInput ms).withFb (fbWrite s.fb j v)) ∨
       (m = .reset ∧ t = applyReset (s.withInput ms))) := by
  unfold step at h
  split at h
  · rename_i hin; cases h; exact .inl ⟨hin, rfl⟩
  rename_i m ms hin
  refine .inr ⟨m, ms, hin, ?_⟩
  have ignored : s.withInput ms = (s.withInput ms).withReadData s.readData := rfl
  cases m with
  | regWrite r v =>
    cases r with
    | cmd =>
      left
      refine ⟨v, rfl, ?_⟩
      change (if commandComplete (s.cbuf ++ [v]) = true then
        runCommand (s.cbuf ++ [v]) ((s.withInput ms).withCbuf []) else
        .next ((s.withInput ms).withCbuf (s.cbuf ++ [v]))) = _ at h
      cases hc : commandComplete (s.cbuf ++ [v])
      · rw [if_neg (by simp [hc])] at h; cases h; exact .inl ⟨rfl, rfl⟩
      · rw [if_pos hc] at h
        unfold runCommand at h
        split at h
        · rename_i i hd; exact .inr (.inl ⟨rfl, i, hd, h⟩)
        · rename_i e hd; cases h; exact .inr (.inr ⟨rfl, ⟨e, hd⟩, rfl⟩)
    | result => cases h; exact .inr (.inl ⟨_, ignored⟩)
    | status => cases h; exact .inr (.inl ⟨_, ignored⟩)
  | regRead r => cases h; exact .inr (.inl ⟨_, rfl⟩)
  | fbWrite j v =>
    change (if j < s.cfg.fbWords then Host.Outcome.next ((s.withInput ms).withFb (fbWrite s.fb j v)) else
      Host.Outcome.fault (Fault.noSuchFbWord j)) = _ at h
    split at h
    · cases h; exact .inr (.inr (.inl ⟨j, v, rfl, ‹_›, rfl⟩))
    · cases h
  | fbRead j =>
    change (if j < s.cfg.fbWords then Host.Outcome.next ((s.withInput ms).withReadData (fbRead s.fb j)) else
      Host.Outcome.fault (Fault.noSuchFbWord j)) = _ at h
    split at h
    · cases h; exact .inr (.inl ⟨_, rfl⟩)
    · cases h
  | reset => cases h; exact .inr (.inr (.inr ⟨rfl, rfl⟩))

/-- A step that completes has taken the oldest move of the host, if there was one. -/
theorem step_input {s t : State} (h : step s = .next t) : t.input = s.input.tail := by
  rcases step_next h with ⟨hin, rfl⟩ | ⟨m, ms, hin, ⟨v, -, ⟨-, rfl⟩ | ⟨-, i, -, he⟩ | ⟨-, -, rfl⟩⟩ | ⟨d, rfl⟩ |
    ⟨j, v, -, -, rfl⟩ | ⟨-, rfl⟩⟩
  · simp [hin]
  · simp [hin]
  · obtain ⟨fb, v, rfl, -⟩ := exec_next he
    simp [hin]
  all_goals simp [hin, applyReset]

end Sys2Proof.Machine
end

