-- ==== Sys2Proof/Tests/Slice0.lean ====
section
/-! SUPPORT. The model's own tests: ill-formed terms refused, every command's decoding from words written out from the
spec, small runs whose results are those of 95_test_vectors.md, and for every statement with hypotheses a witness that
meets them. -/

namespace Sys2Proof.Tests

open Sys2Proof Sys2Proof.Machine

/-! ### Small states -/

/-- The `TINY` geometry of 95_test_vectors.md: WPL 2, LINES 12, LINE_WIDTH 48, the fonts TF0, TF1, TF2. -/
def tiny : Config where
  wpl := 2
  lines := 12
  lineWidth := 48
  bold := testFont0
  regular := testFont1
  small := testFont2
  regBase := 0
  fbBase := 12
  hostByteOrder := .bigEndian

/-- A state with every FB word `v` and RESULT 9, idle. -/
def screen (c : Config) (v : Word) : State where
  cfg := c
  fb := List.replicate c.fbWords v
  result := 9
  ill := false
  cbuf := []
  input := []
  readData := 0
  resets := 0

/-- The outcome is a next state with this RESULT and these FB words. -/
def gives (o : Host.Outcome State Fault Refusal) (result : Word) (words : List (Nat × Word)) : Bool :=
  match o with
  | .next t => decide (t.result = result) && words.all fun p => decide (fbRead t.fb p.1 = p.2)
  | _ => false

/-- The outcome is a next state that this test accepts. -/
def accepts (o : Host.Outcome State Fault Refusal) (p : State → Bool) : Bool :=
  match o with
  | .next t => p t
  | _ => false

/-! ### WellFormed: an ill-formed term for each check -/

theorem test_wf_drawstr_too_long : (Instr.drawstr .bold ⟨0, 0, 1, 1⟩ 0 0 (List.replicate 65533 0)).wellFormed 11 = false := by
  simp only [Instr.wellFormed, List.length_replicate]
  rfl

theorem test_wf_strwidth_too_long : (Instr.strwidth .bold (List.replicate 65536 0)).wellFormed 11 = false := by
  simp only [Instr.wellFormed, List.length_replicate]
  rfl

theorem test_wf_linefill_short : (Instr.linefill 0 [1, 2, 3]).wellFormed 2 = false := by decide

theorem test_wf_config_bounds :
    [{ tiny with wpl := 0 }, { tiny with wpl := 2048 }, { tiny with lines := 0 }, { tiny with lines := 65536 },
      { tiny with lineWidth := 0 }, { tiny with lineWidth := 65 }].all (fun c => !c.ok) = true := by decide +kernel

theorem test_wf_font_empty : Font.ok ⟨[], [], 0, 0⟩ = false := by decide

theorem test_wf_font_too_high : Font.ok ⟨[0], [], 0, 511⟩ = false := by decide

theorem test_wf_font_range : Font.ok ⟨[0], [⟨0x1FFFFF, [0, 0]⟩], 0, 0⟩ = false := by decide

theorem test_wf_config_refuses_a_bad_font :
    [{ tiny with bold := ⟨[], [], 0, 0⟩ }, { tiny with regular := ⟨[], [], 0, 0⟩ },
      { tiny with small := ⟨[], [], 0, 0⟩ }].all (fun c => !c.ok) = true := by decide +kernel

theorem test_wf_tiny : tiny.ok = true := by decide +kernel

/-! ### Decoding: words written out from 30_encoding.md R81 to R84 -/

/-- OP 0001, FONT 01, LEN 4; x0 1, x1 2; y0 3, y1 4; x 5, y 6; U+0041. -/
theorem test_decode_xorchar :
    decode 11 [0b00010100000000000000000000000100, 0b00000000000000010000000000000010,
      0b00000000000000110000000000000100, 0b00000000000001010000000000000110, 0b00000000000000000000000001000001] =
      .ok (.xorchar .regular ⟨1, 3, 2, 4⟩ 5 6 0x41) := by decide

/-- OP 0010, FONT 10, LEN 5; two characters, the second with bit 20 set. -/
theorem test_decode_drawstr :
    decode 11 [0b00101000000000000000000000000101, 0x00010002, 0x00030004, 0x00050006, 0x00000041,
      0b00000000000100000000000000000001] = .ok (.drawstr .small ⟨1, 3, 2, 4⟩ 5 6 [0x41, 0x100001]) := by decide

/-- OP 0011, FONT 00, LEN 2. -/
theorem test_decode_strwidth :
    decode 11 [0b00110000000000000000000000000010, 0x00000041, 0x00000040] = .ok (.strwidth .bold [0x41, 0x40]) := by
  decide

/-- OP 0100, LEN 2. -/
theorem test_decode_clear :
    decode 11 [0b01000000000000000000000000000010, 0x001E0024, 0x00000001] = .ok (.clear ⟨30, 0, 36, 1⟩) := by decide

/-- OP 0101, LEN 2. -/
theorem test_decode_invert :
    decode 11 [0b01010000000000000000000000000010, 0x0003012C, 0x00070009] = .ok (.invert ⟨3, 7, 300, 9⟩) := by decide

/-- OP 0110, LEN 1. -/
theorem test_decode_outline :
    decode 11 [0b01100000000000000000000000000001, 0x000A0010] = .ok (.outline 10 16) := by decide

/-- OP 0111, LEN 1 + WPL, on two words per line. -/
theorem test_decode_linefill :
    decode 2 [0b01110000000000000000000000000011, 0x0000000B, 0x12345678, 0x9ABCDEF0] =
      .ok (.linefill 11 [0x12345678, 0x9ABCDEF0]) := by decide

/-- OP 1000, FONT 00, LEN 1. -/
theorem test_decode_goff :
    decode 11 [0b10000000000000000000000000000001, 0x001FFFFF] = .ok (.goff .bold 0x1FFFFF) := by decide

/-- OP 1001, FONT 10, LEN 1; all 32 bits of the index. -/
theorem test_decode_ghdr :
    decode 11 [0b10011000000000000000000000000001, 0xFFFFFFFE] = .ok (.ghdr .small 0xFFFFFFFE) := by decide

/-- One word sequence for each clause of 30_encoding.md R87 (vectors E1, E2, E3, E5, E6, E8 and a LN word with bit 31
set). -/
theorem test_decode_illegal :
    decode 11 [0x00000000] = .error .opcode ∧ decode 11 [0xA0000000] = .error .opcode ∧
    decode 11 [0x40010002, 0x001E0024, 0x00000001] = .error .reservedBits ∧
    decode 11 [0x44000002, 0x001E0024, 0x00000001] = .error .font ∧
    decode 11 [0x40000003, 0x001E0024, 0x00000001, 0x12345678] = .error .length ∧
    decode 11 [0x10000004, 0x00000150, 0x00000218, 0x00000000, 0x00200041] = .error .charBits ∧
    decode 2 [0x70000003, 0x80000000, 0, 0] = .error .lineBits := by decide

/-- The table's numbering: the first word is the least significant, operand words the table gives no bits are 0. -/
theorem test_decodeTableWord :
    decodeTableWord 64 0x0000004180000001 = some (.goff .bold 0x41) ∧
    decodeTableWord 32 0x10000004 = some (.xorchar .bold ⟨0, 0, 0, 0⟩ 0 0 0) ∧
    decodeTableWord 32 0x20000000 = none := by decide

/-! ### Small runs: results from 95_test_vectors.md -/

/-- Vector X20: the glyph runs into the padding bits. -/
theorem test_xorchar_padding :
    gives (exec (.xorchar .bold ⟨0, 0, 48, 12⟩ 44 0 0x41) (screen tiny 0)) 8
      [(1, 0), (2, 0), (3, 0x00038000), (5, 0x00044000), (7, 0x00044000), (9, 0x0007C000), (11, 0x00044000),
        (13, 0x00044000), (15, 0x00044000), (17, 0)] = true := by decide +kernel

/-- Vectors X2 and X3: rows across two words, clipped at the Region's bottom edge. -/
theorem test_xorchar_straddle_clipped :
    gives (exec (.xorchar .bold ⟨0, 0, 336, 15⟩ 28 10 0x41) (screen Config.reference 0)) 8
      [(121, 0x00000003), (122, 0x80000000), (132, 0x00000004), (133, 0x40000000), (154, 0x00000007),
        (155, 0xC0000000), (165, 0), (166, 0)] = true := by decide +kernel

/-- The start of vector T1: 'A' at left edge 1, '@' at left edge 9. -/
theorem test_drawstr_advances :
    gives (exec (.drawstr .bold ⟨0, 0, 336, 24⟩ 0 0 [0x41, 0x40]) (screen Config.reference 0)) 29
      [(0, 0), (11, 0x38000000), (44, 0x7C000000), (88, 0x003AA180), (89, 0)] = true := by decide +kernel

/-- Vector T2: the oversized 'X' advances by 0 and does not end the string. -/
theorem test_drawstr_oversized :
    gives (exec (.drawstr .bold ⟨0, 0, 336, 536⟩ 0 0 [0x41, 0x58, 0x41]) (screen Config.reference 0)) 16
      [(0, 0), (11, 0x38380000), (22, 0x44440000)] = true := by decide +kernel

/-- Vector T6: the oversized 'X' counts 33 + 3, the empty string is 0. -/
theorem test_strwidth :
    gives (exec (.strwidth .bold [0x41, 0x58, 0x41]) (screen tiny 1)) 51 [(0, 1)] = true ∧
    gives (exec (.strwidth .bold []) (screen tiny 1)) 0 [(0, 1)] = true := by decide +kernel

/-- Vectors G1 and G3: two words, and one word under both masks. -/
theorem test_clear :
    gives (exec (.clear ⟨30, 0, 36, 1⟩) (screen tiny 0)) 9 [(0, 0x00000003), (1, 0xF0000000), (2, 0)] = true ∧
    gives (exec (.clear ⟨5, 2, 9, 4⟩) (screen tiny 0)) 9 [(2, 0), (4, 0x07800000), (5, 0), (6, 0x07800000), (8, 0)] =
      true := by decide +kernel

/-- Vector G11: a full-screen clear leaves the padding bits. -/
theorem test_clear_leaves_padding :
    gives (exec (.clear ⟨0, 0, 48, 12⟩) (screen tiny 0)) 9
      [(0, 0xFFFFFFFF), (1, 0xFFFF0000), (22, 0xFFFFFFFF), (23, 0xFFFF0000)] = true := by decide +kernel

/-- Vector G2. -/
theorem test_invert :
    gives (exec (.invert ⟨30, 0, 36, 1⟩) (screen tiny 0xFFFFFFFF)) 9
      [(0, 0xFFFFFFFC), (1, 0x0FFFFFFF), (2, 0xFFFFFFFF)] = true := by decide +kernel

/-- The patterns of vector O6, height 8: two bordered lines. -/
theorem test_outline :
    gives (exec (.outline 2 10) (screen tiny 0)) 9
      [(3, 0), (4, 0xFFFFFFFF), (7, 0xFFFFFFFF), (8, 0xC0000000), (9, 0x0003FFFF), (10, 0xDFFFFFFF), (11, 0xFFFBFFFF),
        (12, 0xDFFFFFFF), (14, 0xC0000000), (16, 0xFFFFFFFF), (19, 0xFFFFFFFF), (20, 0)] = true := by decide +kernel

/-- Vector O1: height 5 is a no-op. -/
theorem test_outline_too_low :
    accepts (exec (.outline 2 7) (screen tiny 1)) (fun t => decide (t = screen tiny 1)) = true := by decide +kernel

/-- Verbatim, padding bits included (43_region.md R158). -/
theorem test_linefill :
    gives (exec (.linefill 11 [0xDEADBEEF, 0x0BADF00D]) (screen tiny 0)) 9
      [(21, 0), (22, 0xDEADBEEF), (23, 0x0BADF00D)] = true := by decide +kernel

/-- Vector Q1. -/
theorem test_goff :
    gives (exec (.goff .bold 0x200B) (screen tiny 0)) 22 [] = true ∧
    gives (exec (.goff .bold 0x1F600) (screen tiny 0)) 0 [] = true := by decide +kernel

/-- Vector Q4: a payload word, masked, and one past the end. -/
theorem test_ghdr :
    gives (exec (.ghdr .bold 3) (screen tiny 0)) 0x0063F8C6 [] = true ∧
    gives (exec (.ghdr .bold 23) (screen tiny 0)) 0 [] = true := by decide +kernel

/-- The first two steps of vector F1: nothing is executed while PARTIAL = 1. -/
theorem test_step_partial :
    accepts (step ((screen tiny 0).withInput [.regWrite .cmd 0x40000002]))
      (fun t => decide (t.cbuf = [0x40000002] ∧ statusWord t = 4 ∧ t.result = 9)) = true := by decide +kernel

/-- Vector E1: the all-zero word. -/
theorem test_step_illegal :
    accepts (step ((screen tiny 7).withInput [.regWrite .cmd 0]))
      (fun t => decide (t.cbuf = [] ∧ statusWord t = 2 ∧ t.result = 0 ∧ t.fb = List.replicate 24 7)) = true := by
  decide +kernel

/-- The reset of vector F2: the words received are dropped. -/
theorem test_step_reset :
    accepts (step (((screen tiny 7).withCbuf [0x40000002, 0x001E0024]).withInput [.reset]))
      (fun t => decide (t.cbuf = [] ∧ statusWord t = 0 ∧ t.result = 0)) = true := by decide +kernel

/-- The first step after reset runs the word that is placed: `GOFF bold, 'A'` of vector Q1. -/
theorem test_withFetchWord :
    accepts (step (State.reset.withFetchWord 64 0x0000004180000001)) (fun t => decide (t.result = 2 ∧ t.cbuf = [])) =
      true := by decide +kernel

/-! ### Witnesses: states and operands that meet the hypotheses of the statements -/

theorem tiny_inv (v : Word) : (screen tiny v).Inv :=
  ⟨test_wf_tiny, (wf_iff _ _).2 (List.length_replicate ..), rfl⟩

theorem tiny_fontsReadable : fontsReadable tiny := by
  intro f
  cases f <;> exact fontReadable_of_records (by decide +kernel) (by decide +kernel)

/-- `(0,0)-(48,12)`, the whole visible `TINY` screen. -/
def whole : Region := ⟨0, 0, 48, 12⟩

theorem witness_DecodeEncodeGivesTheCommandBack :
    2047 ≤ 2047 ∧ (Instr.linefill 65535 (List.replicate 2047 1)).wellFormed 2047 = true ∧
    (Instr.drawstr .small ⟨65535, 0, 65535, 0⟩ 0 65535 (List.replicate 65532 0x1FFFFF)).wellFormed 2047 = true ∧
    (Instr.strwidth .regular (List.replicate 65535 0)).wellFormed 2047 = true := by
  simp only [Instr.wellFormed, List.length_replicate]
  exact ⟨Nat.le_refl _, rfl, rfl, rfl⟩

theorem witness_DecodedWordsAreTheEncodingOfTheCommand :
    decode 2 [0x70000003, 0x0000000B, 0xFFFFFFFF, 0] = .ok (.linefill 11 [0xFFFFFFFF, 0]) := by decide

/-- A complete command that is illegal and one that is not; for each clause, `test_decode_illegal`. -/
theorem witness_IllegalExactlyWhenAClauseOfR87Holds :
    ([0x00000041] : List Word).length = (0x80000001 : Word).toNat % 2 ^ 16 ∧
    decode 11 [0x80000001, 0x00000041] = .ok (.goff .bold 0x41) ∧
    decode 11 [0x80000001, 0x00200000] = .error .charBits ∧
    decode 11 [0x80000001, 0x001FFFFF] = .ok (.goff .bold 0x1FFFFF) ∧
    decode 2 [0x70000003, 0x00010000, 0, 0] = .error .lineBits ∧
    decode 2 [0x70000003, 0x0000FFFF, 0, 0] = .ok (.linefill 65535 [0, 0]) := by decide

theorem witness_StepRunsTheDecodedCommand :
    let s := ((screen tiny 0).withCbuf [0x80000001]).withInput [.regWrite .cmd 0x41, .reset]
    s.input = .regWrite .cmd 0x41 :: [.reset] ∧ decode s.cfg.wpl (s.cbuf ++ [0x41]) = .ok (.goff .bold 0x41) := by
  decide

theorem witness_PushingACommandRunsItOnce :
    let s := (screen tiny 0).withInput [.regWrite .cmd 0x80000001, .regWrite .cmd 0x41, .reset]
    s.cfg.wpl ≤ 2047 ∧ (Instr.goff .bold 0x41).wellFormed s.cfg.wpl = true ∧ s.cbuf = [] ∧
      s.input = (encode (.goff .bold 0x41)).map (HostMove.regWrite .cmd) ++ [.reset] := by decide

theorem witness_UnfinishedCommandOnlyFillsCbuf :
    let s := ((screen tiny 0).withCbuf [0x40000002]).withInput [.regWrite .cmd 5]
    s.input = .regWrite .cmd 5 :: [] ∧ s.cbuf ++ [5] = 0x40000002 :: [5] ∧
      ([5] : List Word).length < (0x40000002 : Word).toNat % 2 ^ 16 := by decide

/-- An illegal command, followed by a legal one that runs and does not clear ILL. -/
theorem witness_IllegalCommandIsConsumedAndFlagged :
    let ms : List HostMove := [.regWrite .cmd 0x80000001, .regWrite .cmd 0x41]
    let s := ((screen tiny 0).withCbuf [0x00000001]).withInput (.regWrite .cmd 5 :: ms)
    s.input = .regWrite .cmd 5 :: ms ∧ s.cbuf ++ [5] = 0x00000001 :: [5] ∧
      ([5] : List Word).length = (0x00000001 : Word).toNat % 2 ^ 16 ∧
      decode s.cfg.wpl [0x00000001, 5] = .error .opcode ∧ (∀ m ∈ ms.take 2, m ≠ .reset) ∧
      (match Host.Core.run Sys2Proof.core 3 s with
        | .next u => u.ill && decide (u.result = 2)
        | _ => false) = true := by decide +kernel

theorem witness_StatusReadsBusyIllPartial :
    let s := (((screen tiny 0).withIll true).withCbuf [0x40000002]).withInput [.regRead .status]
    s.input = .regRead .status :: [] ∧ accepts (step s) (fun t => decide (t.readData = 6)) = true := by decide +kernel

/-- One state for each clause. -/
theorem witness_RegisterAccessesFollowTheMap :
    ((screen tiny 0).withInput [.regRead .cmd]).input = .regRead .cmd :: [] ∧
    ((screen tiny 0).withInput [.regRead .result]).input = .regRead .result :: [] ∧
    ((screen tiny 0).withInput [.regWrite .result 3]).input = .regWrite .result 3 :: [] ∧
    ((screen tiny 0).withInput [.regWrite .status 3]).input = .regWrite .status 3 :: [] := by decide

/-- Both clauses, at the last word of FB. -/
theorem witness_HostFrameBufferAccess :
    ((screen tiny 0).withInput [.fbWrite 23 5]).Inv ∧ ((screen tiny 0).withInput [.fbRead 23]).Inv ∧
    23 < tiny.wpl * tiny.lines ∧ ((screen tiny 0).withInput [.fbWrite 23 5]).input = .fbWrite 23 5 :: [] ∧
    ((screen tiny 0).withInput [.fbRead 23]).input = .fbRead 23 :: [] :=
  ⟨tiny_inv 0, tiny_inv 0, by decide, rfl, rfl⟩

/-- Both clauses, at the first word index past FB. -/
theorem witness_HostAccessOutsideFbFaults :
    tiny.wpl * tiny.lines ≤ 24 ∧ ((screen tiny 0).withInput [.fbWrite 24 5]).input = .fbWrite 24 5 :: [] ∧
    ((screen tiny 0).withInput [.fbRead 24]).input = .fbRead 24 :: [] := by decide

theorem witness_ResetMoveLeavesTheResetValues :
    let s := (((screen tiny 0).withIll true).withCbuf [0x40000002, 1]).withInput [.reset]
    s.input = .reset :: [] := rfl

theorem witness_IdleStepChangesNothing : (screen tiny 0).input = [] := rfl

theorem witness_StepKeepsTheInvariant :
    let s := (screen tiny 0).withInput [.regWrite .cmd 0x40000002]
    s.Inv ∧ ∃ t, step s = .next t ∧ t.cbuf = [0x40000002] := ⟨tiny_inv 0, _, rfl, rfl⟩

theorem witness_NoStepChangesTheParameters :
    ∃ t, step ((screen tiny 0).withInput [.reset]) = .next t ∧ t.resets = 1 := ⟨_, rfl, rfl⟩

theorem witness_SafeStepsAlwaysComplete :
    ((screen tiny 0).withInput [.regWrite .cmd 0x40000002, .fbWrite 23 1, .fbRead 0, .reset]).Safe :=
  ⟨tiny_fontsReadable, by decide⟩

/-- For `exec i s = .next t`: a string drawn, and a query. -/
theorem witness_CommandsChangeOnlyFbAndResult :
    accepts (exec (.drawstr .bold whole 0 0 [0x41]) (screen tiny 0)) (fun t => decide (t.result = 8)) = true ∧
    exec (.goff .bold 0x41) (screen tiny 0) = .next ((screen tiny 0).withResult 2) := ⟨by decide +kernel, rfl⟩

/-- Both ways ILL can change. -/
theorem witness_OnlyIllegalCommandsAndResetChangeIll :
    accepts (step ((screen tiny 0).withInput [.regWrite .cmd 0])) (fun t => t.ill) = true ∧
    accepts (step (((screen tiny 0).withIll true).withInput [.reset])) (fun t => !t.ill) = true := by decide +kernel

/-- Two frame buffers of one length that differ in a word and agree in bits of another. -/
theorem witness_NoCommandBranchesOnFbContent :
    accepts (exec (.xorchar .bold whole 44 0 0x41) (screen tiny 0)) (fun _ => true) = true ∧
    (fbWrite (List.replicate 24 0) 3 6).length = (screen tiny 0).fb.length ∧
    (fbRead (fbWrite (List.replicate 24 0) 3 6) 3).getLsbD 0 = (fbRead (screen tiny 0).fb 3).getLsbD 0 := by
  decide +kernel

theorem witness_CommandsReadNoHostRegister :
    exec (.strwidth .bold [0x41]) (screen tiny 0) = .next ((screen tiny 0).withResult 7) := rfl

theorem witness_HeaderUnpacksTheThreeFields :
    (0x00121008 : Word).toNat % 2 ^ 24 = (0xFF121008 : Word).toNat % 2 ^ 24 := by decide

/-- No range holds U+1F600 or U+0059; the second range holds U+200B; the first holds U+0020 and U+0058, its ends. -/
theorem witness_GoffReturnsTheFirstMatch :
    (∀ g ∈ (tiny.font .bold).ranges, ¬ (g.lo ≤ 0x1F600 ∧ 0x1F600 < g.lo + g.table.length)) ∧
    (∀ g ∈ (tiny.font .bold).ranges, ¬ (g.lo ≤ 0x59 ∧ 0x59 < g.lo + g.table.length)) ∧
    (∃ g0 g1, (tiny.font .bold).ranges = [g0] ++ g1 :: [] ∧
      (∀ g' ∈ [g0], ¬ (g'.lo ≤ 0x200B ∧ 0x200B < g'.lo + g'.table.length)) ∧
      g1.lo ≤ 0x200B ∧ g1.table[0x200B - g1.lo]? = some 22) ∧
    (∃ g0 post, (tiny.font .bold).ranges = [] ++ g0 :: post ∧ g0.lo ≤ 0x20 ∧ g0.table[0x20 - g0.lo]? = some 21 ∧
      g0.lo ≤ 0x58 ∧ g0.table[0x58 - g0.lo]? = some 18) ∧
    (screen tiny 0).cfg.bold = testFont0 :=
  ⟨by decide, by decide, ⟨_, _, rfl, by decide, by decide, by decide⟩,
    ⟨_, _, rfl, by decide, by decide, by decide, by decide⟩, rfl⟩

/-- The last index of the data and the first past it. -/
theorem witness_GhdrReturnsTheMaskedHeader :
    (tiny.font .bold).data[(22 : Word).toNat]? = some 0x00000500 ∧
    (tiny.font .bold).data.length ≤ (23 : Word).toNat ∧ (screen tiny 0).cfg.bold = testFont0 := by decide

/-- Each of the four ways to violate the Region invariant at its bound, and a glyph of width 33. -/
theorem witness_XorcharRejectsBadRegionAndWideGlyph :
    (49 : Coord).toNat > tiny.lineWidth ∧ (13 : Coord).toNat > tiny.lines ∧ (5 : Coord).toNat ≥ (5 : Coord).toNat ∧
    (∃ hd, glyphHeader (tiny.font .bold) 0x58 = some hd ∧ hd.width.toNat = 33 ∧ hd.width.toNat > 32) :=
  ⟨by decide, by decide, by decide, ⟨_, rfl, by decide, by decide⟩⟩

/-- An accepted draw of width 32, and a rejected one of width 33. -/
theorem witness_XorcharReturnsTheAdvance :
    (∃ hd, glyphReadable (tiny.font .bold) 0x57 = true ∧ glyphHeader (tiny.font .bold) 0x57 = some hd ∧
      regionOk tiny whole = true ∧ hd.width.toNat = 32) ∧
    (∃ hd, glyphReadable (tiny.font .bold) 0x58 = true ∧ glyphHeader (tiny.font .bold) 0x58 = some hd ∧
      hd.width.toNat = 33) :=
  ⟨⟨_, by decide, rfl, by decide, by decide⟩, ⟨_, by decide, rfl, by decide⟩⟩

theorem witness_XorcharFlipsExactlyTheGlyphPixels :
    ∃ hd, (screen tiny 0).Inv ∧ glyphReadable ((screen tiny 0).cfg.font .bold) 0x41 = true ∧
      glyphHeader ((screen tiny 0).cfg.font .bold) 0x41 = some hd ∧ regionOk (screen tiny 0).cfg whole = true ∧
      hd.width.toNat ≤ 32 := ⟨_, tiny_inv 0, by decide, rfl, by decide, by decide⟩

/-- A draw that completes, and a second one after it. -/
theorem witness_XorcharTwiceRestoresAndDrawsCommute :
    (match exec (.xorchar .bold whole 44 0 0x41) (screen tiny 0) with
      | .next a => accepts (exec (.xorchar .regular whole 3 4 0x42) a) (fun _ => true)
      | _ => false) = true := by decide +kernel

/-- The contract at its bounds: `x + 1 = x0` and `x + 1 + w = x1`, with a row drawn. -/
theorem witness_XorcharStaysInTheRegionUnderTheContract :
    ∃ hd, (screen tiny 0).Inv ∧ glyphReadable ((screen tiny 0).cfg.font .bold) 0x41 = true ∧
      glyphHeader ((screen tiny 0).cfg.font .bold) 0x41 = some hd ∧
      regionOk (screen tiny 0).cfg ⟨10, 1, 15, 12⟩ = true ∧ hd.width.toNat ≤ 32 ∧
      (10 : Coord).toNat ≤ (9 : Coord).toNat + 1 ∧ (9 : Coord).toNat + 1 + hd.width.toNat ≤ (15 : Coord).toNat ∧
      (1 : Coord).toNat ≤ (0 : Coord).toNat + hd.yOffset.toNat ∧
      6 < effectiveHeight hd.height.toNat (12 : Coord).toNat ((0 : Coord).toNat + hd.yOffset.toNat) ∧ 4 < hd.width.toNat :=
  ⟨_, tiny_inv 0, by decide, rfl, by decide, by decide, by decide, by decide, by decide, by decide, by decide⟩

/-- The last row of 'A', whose pixels lie in two payload words. -/
theorem witness_RowPatternIsTheGlyphRow :
    ∃ hd, glyphReadable testFont0 0x41 = true ∧ glyphHeader testFont0 0x41 = some hd ∧ 1 ≤ hd.width.toNat ∧
      hd.width.toNat ≤ 32 ∧ 6 < hd.height.toNat := ⟨_, by decide, rfl, by decide, by decide, by decide⟩

/-- A font whose one glyph has no payload word, and one with no header. -/
def brokenFont (data : List Word) : Config where
  wpl := 2
  lines := 12
  lineWidth := 48
  bold := ⟨data, [], 0, 0⟩
  regular := testFont1
  small := testFont2
  regBase := 0
  fbBase := 12
  hostByteOrder := .bigEndian

theorem witness_XorcharRefusedExactlyWhenAFontReadIsOutOfRange :
    exec (.xorchar .bold whole 0 0 0) (screen (brokenFont []) 0) = .refused (.fontReadOutOfRange .bold) ∧
    exec (.xorchar .bold whole 0 0 0) (screen (brokenFont [0x00010100]) 0) = .refused (.fontReadOutOfRange .bold) ∧
    accepts (exec (.xorchar .bold whole 0 0 0) (screen (brokenFont [0x00010100, 0]) 0)) (fun _ => true) = true :=
  ⟨rfl, rfl, by decide +kernel⟩

theorem forall_of_all {p : CodePoint → Prop} [DecidablePred p] {l : List CodePoint}
    (h : l.all (fun a => decide (p a)) = true) : ∀ a ∈ l, p a :=
  fun a ha => of_decide_eq_true (List.all_eq_true.1 h a ha)

/-- The width of a character of TF0. -/
def width (cp : CodePoint) : Nat := (charWidth testFont0 cp).getD 0

/-- A string and the empty string. -/
theorem witness_StrwidthSumsWidthsPlusThreeLessOne :
    ([0x41, 0x58] : List CodePoint).length ≤ 65535 ∧
    (∀ cp ∈ ([0x41, 0x58] : List CodePoint), charWidth (tiny.font .bold) cp = some (width cp)) ∧
    (∀ cp ∈ ([] : List CodePoint), charWidth (tiny.font .bold) cp = some (width cp)) :=
  ⟨by decide, forall_of_all (by decide +kernel), forall_of_all rfl⟩

theorem witness_DrawstrReturnsTheSumOfTheAdvances :
    ([0x41, 0x58] : List CodePoint).length ≤ 65532 ∧
    (∀ cp ∈ ([0x41, 0x58] : List CodePoint),
      glyphReadable (tiny.font .bold) cp = true ∧ charWidth (tiny.font .bold) cp = some (width cp)) :=
  ⟨by decide, forall_of_all (by decide +kernel)⟩

theorem witness_DrawstrIsXorcharThenTheRest :
    (match exec (.xorchar .bold whole 3 0 0x41) (screen tiny 0) with
      | .next t => decide ((11 : Coord).toNat = (3 : Coord).toNat + t.result.toNat) &&
          accepts (exec (.drawstr .bold whole 11 0 [0x41]) t) (fun _ => true)
      | _ => false) = true := by decide +kernel

theorem witness_DrawstrFlipsTheGlyphPixelsOfEachCharacter :
    (screen tiny 0).Inv ∧
      ∀ cp ∈ ([0x41, 0x58, 0x40] : List CodePoint), glyphReadable (tiny.font .bold) cp = true :=
  ⟨tiny_inv 0, forall_of_all (by decide +kernel)⟩

theorem witness_DrawstrChangesOnlyColumnsOfItsString :
    (screen tiny 0).Inv ∧ ([0x41, 0x41] : List CodePoint).length ≤ 65532 ∧
      accepts (exec (.drawstr .bold whole 3 0 [0x41, 0x41]) (screen tiny 0)) (fun t => decide (t.result = 16)) = true :=
  ⟨tiny_inv 0, by decide, by decide +kernel⟩

/-- A string of glyphs of width at most 32, and one with a wider glyph. -/
theorem witness_DrawstrResultIsStrwidthPlusOne :
    (screen tiny 0).Inv ∧ regionOk tiny whole = true ∧
    (∀ cp ∈ ([0x57, 0x41] : List CodePoint), glyphReadable (tiny.font .bold) cp = true ∧
      charWidth (tiny.font .bold) cp = some (width cp) ∧ width cp ≤ 32) ∧
    (∀ cp ∈ ([0x41, 0x58] : List CodePoint), glyphReadable (tiny.font .bold) cp = true ∧
      charWidth (tiny.font .bold) cp = some (width cp)) ∧
    (∃ cp ∈ ([0x41, 0x58] : List CodePoint), width cp > 32) :=
  ⟨tiny_inv 0, by decide, forall_of_all (by decide +kernel), forall_of_all (by decide +kernel),
    ⟨0x58, by decide, by decide +kernel⟩⟩

theorem witness_DrawstrOfNothingChangesOnlyResult :
    regionOk (screen tiny 0).cfg ⟨10, 0, 10, 12⟩ = false ∧ ([] : List CodePoint) = [] := by decide

theorem witness_DrawstrPassesOverAnOversizedCharacter :
    ∃ hd, glyphHeader (tiny.font .bold) 0x58 = some hd ∧ hd.width.toNat > 32 := ⟨_, rfl, by decide⟩

theorem witness_StringCommandsRefuseAMissingHeader :
    glyphHeader ((brokenFont []).font .bold) 0x41 = none ∧ regionOk (brokenFont []) whole = true := by decide

/-- Each clause at its bound: for `CLEAR` and `INVERT` see `witness_XorcharRejectsBadRegionAndWideGlyph`. -/
theorem witness_RegionCommandsIgnoreMalformedBounds :
    (49 : Coord).toNat > tiny.lineWidth ∧ (13 : Coord).toNat > tiny.lines ∧ (7 : Coord).toNat ≥ (7 : Coord).toNat ∧
    (7 : Coord).toNat - (2 : Coord).toNat < 6 ∧ (12 : Coord).toNat ≥ tiny.lines := by decide

/-- A Region inside one word up to `LINE_WIDTH`, and one over both words. -/
theorem witness_ColumnMaskCoversExactlyTheRegionColumns :
    47 < 48 ∧ 48 ≤ tiny.lineWidth ∧ tiny.lineWidth ≤ 32 * tiny.wpl ∧
      maskLo 0 ≤ 1 ∧ 1 ≤ maskHi 48 ∧ maskLo 47 ≤ 1 := by decide

/-- For `CLEAR`, `INVERT` and the two after each other: the whole visible screen, and one that is no Region. -/
theorem witness_ClearSetsExactlyTheRegion :
    (screen tiny 0).Inv ∧ regionOk (screen tiny 0).cfg whole = true ∧ whole.x1.toNat = tiny.lineWidth ∧
      whole.y1.toNat = tiny.lines := ⟨tiny_inv 0, by decide, by decide, by decide⟩

theorem witness_InvertFlipsExactlyTheRegion :
    (screen tiny 0).Inv ∧ regionOk (screen tiny 0).cfg ⟨47, 11, 48, 12⟩ = true := ⟨tiny_inv 0, by decide⟩

theorem witness_ClearThenInvertBlackensTheRegion :
    (screen tiny 0).Inv ∧ regionOk (screen tiny 0).cfg whole = true ∧
      regionOk (screen tiny 0).cfg ⟨0, 0, 49, 12⟩ = false := ⟨tiny_inv 0, by decide, by decide⟩

theorem witness_InvertTwiceRestoresAndCommutesWithXorchar :
    (match exec (.xorchar .bold whole 44 0 0x41) (screen tiny 0) with
      | .next a => accepts (exec (.invert whole) a) (fun _ => true)
      | _ => false) = true := by decide +kernel

/-- The least height, down to the last line; and a box with bordered lines. -/
theorem witness_OutlineWritesTheBox :
    (screen tiny 0).Inv ∧ (6 : Coord).toNat < (12 : Coord).toNat ∧ (12 : Coord).toNat ≤ (screen tiny 0).cfg.lines ∧
      6 ≤ (12 : Coord).toNat - (6 : Coord).toNat ∧ 6 ≤ (12 : Coord).toNat - (0 : Coord).toNat :=
  ⟨tiny_inv 0, by decide, by decide, by decide, by decide⟩

theorem witness_LinefillWritesTheLineVerbatim :
    (screen tiny 0).Inv ∧ ([1, 2] : List Word).length = (screen tiny 0).cfg.wpl ∧
      (11 : Coord).toNat < (screen tiny 0).cfg.lines := ⟨tiny_inv 0, by decide, by decide⟩

end Sys2Proof.Tests
end

section
/-! Proofs of the family 00_scope.md: the machine's invariant at reset. -/

namespace Sys2Proof.Machine

/-- The reference device has admitted parameters: its geometry meets 00_scope.md R5, its fonts 10_state.md R24. -/
theorem reference_ok : Config.reference.ok = true := by decide

/-- The CBUF after reset is empty, so no command waits in it (10_state.md R35). -/
theorem reset_cbufPending : cbufPending State.reset.cbuf = true := rfl

/-- Settles O16, by one fact per clause of the invariant: the reference device's parameters are admitted, FB holds
one free value for each of its words, CBUF is empty. -/
theorem resetMeetsTheInvariant : Obligations.ResetMeetsTheInvariant := by
  unfold Obligations.ResetMeetsTheInvariant
  exact ⟨reference_ok, reset_fb_wf, reset_cbufPending⟩

end Sys2Proof.Machine
end

section
/-! Proofs of the family 10_state.md: the rules of the step, of the command port and of the registers (R26 to R29,
R35), and the statements about one move of the host. -/

namespace Sys2Proof.Machine

/-! ### One step -/

/-- A step takes the oldest move of the host and plays it. -/
theorem step_of_move {s : State} {m : HostMove} {ms : List HostMove} (h : s.input = m :: ms) :
    step s = hostMove m (s.withInput ms) := by
  simp [step, h]

/-- A CMD write that makes the command complete decodes it and runs it, with CBUF emptied (10_state.md R29). -/
theorem step_push_complete {s : State} {v : Word} {ms : List HostMove} (h : s.input = .regWrite .cmd v :: ms)
    (hc : commandComplete (s.cbuf ++ [v]) = true) :
    step s = runCommand (s.cbuf ++ [v]) ((s.withInput ms).withCbuf []) := by
  simp [step_of_move h, hostMove, pushCmd, hc]

/-- Any other CMD write fills CBUF (10_state.md R29). -/
theorem step_push_pending {s : State} {v : Word} {ms : List HostMove} (h : s.input = .regWrite .cmd v :: ms)
    (hc : commandComplete (s.cbuf ++ [v]) = false) :
    step s = .next ((s.withInput ms).withCbuf (s.cbuf ++ [v])) := by
  simp [step_of_move h, hostMove, pushCmd, hc]

theorem runCommand_of_decode {ws : List Word} {s : State} {i : Instr} (h : decode s.cfg.wpl ws = .ok i) :
    runCommand ws s = exec i s := by
  simp [runCommand, h]

/-! ### Framing by LEN (10_state.md R29) -/

@[simp] theorem commandComplete_cons (w0 : Word) (ops : List Word) :
    commandComplete (w0 :: ops) = decide (ops.length = lenField w0) := rfl

theorem commandComplete_of_decode {wpl : Nat} {ws : List Word} {i : Instr} (h : decode wpl ws = .ok i) :
    commandComplete ws = true := by
  obtain ⟨w0, ops, rfl, hl, -⟩ := decode_ok_complete h
  simpa using hl

/-- Settles O5: what decodes is complete, so the step runs it. -/
theorem stepRunsTheDecodedCommand : Obligations.StepRunsTheDecodedCommand := by
  intro s v ms i hin hd
  rw [step_push_complete hin (commandComplete_of_decode hd)]
  exact runCommand_of_decode hd

/-- Settles O7: fewer operand words than LEN are no complete command. -/
theorem unfinishedCommandOnlyFillsCbuf : Obligations.UnfinishedCommandOnlyFillsCbuf := by
  intro s v ms w0 ops hin hws hlt
  have hc : commandComplete (s.cbuf ++ [v]) = false := by
    simpa [hws, lenField_eq_mod] using hlt.ne
  rw [step_push_pending hin hc, hws]

/-! ### The registers (10_state.md R26, R28) -/

/-- A one-bit field, bit by bit. -/
theorem getLsbD_bitAt {n : Nat} (hn : n < 32) (b : Bool) (j : Nat) :
    (bitAt n b).getLsbD j = (decide (j = n) && b) := by
  have hone : (BitVec.ofNat 32 (1 <<< n)).getLsbD j = decide (j = n) := by
    rw [BitVec.getLsbD_ofNat, Nat.one_shiftLeft, Nat.testBit_two_pow, ← Bool.decide_and, decide_eq_decide]
    omega
  cases b <;> simp [bitAt, hone]

/-- STATUS, bit by bit: ILL at 1, PARTIAL at 2, zeros elsewhere (10_state.md R28). -/
theorem getLsbD_statusWord (s : State) (j : Nat) :
    (statusWord s).getLsbD j = if j = 1 then s.ill else if j = 2 then decide (s.cbuf ≠ []) else false := by
  have hp : statusPartial s = decide (s.cbuf ≠ []) := by
    cases h : s.cbuf <;> simp [statusPartial, h]
  simp only [statusWord, BitVec.getLsbD_or, statusBusy, hp, getLsbD_bitAt (show 0 < 32 by decide),
    getLsbD_bitAt (show 1 < 32 by decide), getLsbD_bitAt (show 2 < 32 by decide)]
  by_cases h1 : j = 1
  · simp [h1]
  · by_cases h2 : j = 2 <;> simp [h1, h2]

/-- STATUS reads 0 with ILL clear and CBUF empty (10_state.md R35). -/
theorem readReg_status_eq_zero {s : State} (hill : s.ill = false) (hcbuf : s.cbuf = []) : readReg s .status = 0 := by
  simp [readReg, statusWord, bitAt, statusBusy, statusPartial, hill, hcbuf]

theorem step_regRead {s : State} {r : HostReg} {ms : List HostMove} (h : s.input = .regRead r :: ms) :
    step s = .next ((s.withInput ms).withReadData (readReg s r)) := by
  rw [step_of_move h]
  cases r <;> rfl

/-- Settles O9: the data given to the host is STATUS, known bit by bit. -/
theorem statusReadsBusyIllPartial : Obligations.StatusReadsBusyIllPartial :=
  fun s _ hin => ⟨_, step_regRead hin, rfl, getLsbD_statusWord s⟩

/-- Settles O10: the two reads answer the register, the two writes are ignored. -/
theorem registerAccessesFollowTheMap : Obligations.RegisterAccessesFollowTheMap :=
  fun _ _ _ => ⟨step_regRead, step_regRead, step_of_move, step_of_move⟩

/-! ### Reset (10_state.md R35) -/

/-- Settles O13: each reset value is a field of `applyReset`, FB's length that of the free values. -/
theorem resetMoveLeavesTheResetValues : Obligations.ResetMoveLeavesTheResetValues :=
  fun s _ hin => ⟨_, step_of_move hin, rfl, rfl, rfl, readReg_status_eq_zero rfl rfl, rfl,
    Config.freeFb_length s.cfg (s.resets + 1), rfl⟩

/-- Settles O14: the fields of the reset state, FB's length that of the reference geometry. -/
theorem resetStateHoldsTheResetValues : Obligations.ResetStateHoldsTheResetValues := by
  have hlen : State.reset.fb.length = 5896 := (wf_iff _ _).1 reset_fb_wf
  exact ⟨rfl, rfl, rfl, readReg_status_eq_zero rfl rfl, hlen, rfl, rfl, rfl⟩

end Sys2Proof.Machine
end

section
/-! Proofs of the family 10_state.md: pushing a command through the port word by word (R29; 30_encoding.md R80). -/

namespace Sys2Proof.Machine

/-! ### The round trip of the encoding (30_encoding.md R93) -/

/-- Every well-formed command is one header and as many operand words as its LEN says (30_encoding.md R80). -/
theorem encode_framing (i : Instr) : Laws.EncodeFraming.Statement i := by
  cases i with
  | xorchar f r x y cp => exact Laws.EncodeFraming.xorchar f r x y cp
  | drawstr f r x y str => exact Laws.EncodeFraming.drawstr f r x y str
  | strwidth f str => exact Laws.EncodeFraming.strwidth f str
  | clear r => exact Laws.EncodeFraming.clear r
  | invert r => exact Laws.EncodeFraming.invert r
  | outline y0 y1 => exact Laws.EncodeFraming.outline y0 y1
  | linefill y pat => exact Laws.EncodeFraming.linefill y pat
  | goff f cp => exact Laws.EncodeFraming.goff f cp
  | ghdr f index => exact Laws.EncodeFraming.ghdr f index

@[simp] theorem withFont_headerWord (op : BitVec 4) (f : FontNo) (n : Nat) (k : FontNo → Except Illegal Instr) :
    withFont (headerWord op (fontBits f) n) k = k f := by
  simp [withFont, fontField_headerWord, fontOf_fontBits]

@[simp] theorem withoutFont_headerWord (op : BitVec 4) (n : Nat) (k : Except Illegal Instr) :
    withoutFont (headerWord op 0#2 n) k = k := by
  simp [withoutFont, fontField_headerWord]

/-- The operand words of every encoding are read back under its header, OP picking the format. -/
theorem decodeCommand_encode {wpl : Nat} {i : Instr} {w0 : Word} {ops : List Word} (he : encode i = w0 :: ops)
    (hwf : i.wellFormed wpl = true) : decodeCommand wpl w0 ops = .ok i := by
  cases i with
  | xorchar f r x y cp =>
    cases he
    simp [decodeCommand, reservedField_headerWord, opField_headerWord, decodeXorchar, isCH_chWord, chPoint_chWord,
      regionOf_words, hiHalf_halves, loHalf_halves]
  | drawstr f r x y str =>
    cases he
    simp [decodeCommand, reservedField_headerWord, opField_headerWord, decodeDrawstr, isCH_chWord,
      chars_map, regionOf_words, hiHalf_halves, loHalf_halves, -List.map_map]
  | strwidth f str =>
    cases he
    simp [decodeCommand, reservedField_headerWord, opField_headerWord, decodeStrwidth, isCH_chWord, chars_map,
      -List.map_map]
  | clear r =>
    cases he
    simp [decodeCommand, reservedField_headerWord, opField_headerWord, decodeRegion, regionOf_words]
  | invert r =>
    cases he
    simp [decodeCommand, reservedField_headerWord, opField_headerWord, decodeRegion, regionOf_words]
  | outline y0 y1 =>
    cases he
    simp [decodeCommand, reservedField_headerWord, opField_headerWord, decodeOutline, hiHalf_halves, loHalf_halves]
  | linefill y pat =>
    cases he
    have hlen : pat.length = wpl := by simpa [Instr.wellFormed] using hwf
    simp [decodeCommand, reservedField_headerWord, opField_headerWord, decodeLinefill, hiHalf_halves, loHalf_halves,
      hlen]
  | goff f cp =>
    cases he
    simp [decodeCommand, reservedField_headerWord, opField_headerWord, decodeGoff, isCH_chWord, chPoint_chWord]
  | ghdr f index =>
    cases he
    simp [decodeCommand, reservedField_headerWord, opField_headerWord, decodeGhdr]

/-- The decoder gives back every well-formed command that was encoded. -/
theorem decode_encode {wpl : Nat} {i : Instr} (hwpl : wpl ≤ 2047) (hwf : i.wellFormed wpl = true) :
    decode wpl (encode i) = .ok i := by
  obtain ⟨w0, ops, he, -, hlen⟩ := encode_framing i wpl hwpl hwf
  simp [he, decode, hlen, decodeCommand_encode he hwf]

/-! ### Runs -/

theorem run_succ_of_next {s t : State} (h : step s = .next t) (n : Nat) :
    Host.Core.run core (n + 1) s = Host.Core.run core n t := by
  have hs : core.step s = .next t := h
  simp only [Host.Core.run, hs]

theorem run_one (s : State) : Host.Core.run core 1 s = step s := by
  have hs : core.step s = step s := rfl
  simp only [Host.Core.run, hs]
  cases step s <;> rfl

/-- From a CBUF that holds the first words of a complete command, pushing its other words runs it once. -/
theorem run_pushes {w0 : Word} {ops : List Word} (hlen : ops.length = lenField w0) (ms : List HostMove) (v : Word)
    (rest : List Word) (s : State) (hcmd : s.cbuf ++ v :: rest = w0 :: ops)
    (hin : s.input = (v :: rest).map (HostMove.regWrite .cmd) ++ ms) :
    Host.Core.run core (rest.length + 1) s = runCommand (w0 :: ops) ((s.withInput ms).withCbuf []) := by
  induction rest generalizing v s with
  | nil =>
    have hlast : s.input = .regWrite .cmd v :: ms := hin
    rw [List.length_nil, run_one, step_push_complete hlast (by simpa [hcmd] using hlen), hcmd]
  | cons v' rest ih =>
    have hpending : commandComplete (s.cbuf ++ [v]) = false := by
      cases hb : s.cbuf with
      | nil =>
        obtain ⟨rfl, rfl⟩ : v = w0 ∧ v' :: rest = ops := by simpa [hb] using hcmd
        simp [← hlen]
      | cons b bs =>
        obtain ⟨rfl, rfl⟩ : b = w0 ∧ bs ++ v :: v' :: rest = ops := by simpa [hb] using hcmd
        simp [← hlen]
    rw [List.length_cons, run_succ_of_next (step_push_pending hin hpending)]
    exact ih v' _ (by simpa using hcmd) rfl

/-- Settles O6: the words of `encode i` are framed by their header's LEN, and decoding them gives `i` back. -/
theorem pushingACommandRunsItOnce : Obligations.PushingACommandRunsItOnce := by
  intro s ms i hwpl hwf hcbuf hin
  have hd := decode_encode hwpl hwf
  obtain ⟨w0, ops, he, hlen, -⟩ := decode_ok_complete hd
  rw [he] at hin hd ⊢
  have hempty : (s.withInput ms).withCbuf [] = s.withInput ms := by
    rw [← hcbuf]
    rfl
  rw [List.length_cons, run_pushes hlen ms w0 ops s (by simp [hcbuf]) hin, hempty]
  exact runCommand_of_decode hd

end Sys2Proof.Machine
end

section
/-! Proofs of the family 10_state.md: what a command is as a function of the parameters and FB (R27, R31, R32). -/

namespace Sys2Proof.Machine

/-! ### Frame buffers that agree in some places -/

/-- Two frame buffers of one length with the same bit `j` of word `k` wherever `P k j`. -/
def AgreeOn (P : Nat → Nat → Prop) (a b : List Word) : Prop :=
  a.length = b.length ∧ ∀ k j, P k j → (fbRead a k).getLsbD j = (fbRead b k).getLsbD j

/-- An update of FB that makes each new bit of the old bit in its place alone (10_state.md R31). -/
def BitLocal (F : List Word → List Word) : Prop :=
  ∀ P a b, AgreeOn P a b → AgreeOn P (F a) (F b)

theorem bitLocal_id : BitLocal fun fb => fb := fun _ _ _ h => h

theorem bitLocal_forLoop {body : Nat → List Word → List Word} (h : ∀ k, BitLocal (body k)) (a b : Nat) :
    BitLocal (forLoop a b body) :=
  fun P _ _ hab => forLoop_related (AgreeOn P) body a b hab fun k u v => h k P u v

/-- XORing in words that do not depend on FB is bit by bit. -/
theorem bitLocal_of_xorBy {F : List Word → List Word} {m : Nat → Word} (h : ∀ fb, XorBy m fb (F fb)) :
    BitLocal F := by
  rintro P a b ⟨hlen, hbits⟩
  have hlenF : (F a).length = (F b).length := by rw [(h a).1, (h b).1, hlen]
  refine ⟨hlenF, fun k j hP => ?_⟩
  by_cases hk : k < a.length
  · simp [(h a).2 k hk, (h b).2 k (hlen ▸ hk), hbits k j hP]
  · have hk' : (F a).length ≤ k := by rw [(h a).1]; omega
    rw [fbRead_of_length_le _ _ hk', fbRead_of_length_le _ _ (hlenF ▸ hk')]

theorem bitLocal_fbOr (c : Config) (line wl : Nat) (m : Word) : BitLocal (fbOr c line wl m) := by
  rintro P a b ⟨hlen, hbits⟩
  refine ⟨by simp [hlen], fun k j hP => ?_⟩
  rw [fbRead_fbOr, fbRead_fbOr, hlen]
  split <;> simp [hbits k j hP]

theorem bitLocal_fbSet (c : Config) (line wl : Nat) (v : Word) : BitLocal (fbSet c line wl v) := by
  rintro P a b ⟨hlen, hbits⟩
  refine ⟨by simp [hlen], fun k j hP => ?_⟩
  rw [fbRead_fbSet, fbRead_fbSet, hlen]
  split
  · rfl
  · exact hbits k j hP

theorem bitLocal_overRegion {access : Nat → Nat → Word → List Word → List Word}
    (h : ∀ line wl m, BitLocal (access line wl m)) (r : Region) : BitLocal (overRegion access r) :=
  bitLocal_forLoop (fun py => bitLocal_forLoop (fun wl => h py wl _) _ _) _ _

theorem bitLocal_setLine (c : Config) (py : Nat) (word : Nat → Word) : BitLocal (setLine c py word) :=
  bitLocal_forLoop (fun wl => bitLocal_fbSet c py wl (word wl)) _ _

/-! ### The action of a command -/

/-- The commands that only answer: `STRWIDTH`, `GOFF`, `GHDR`. -/
def isQuery : Instr → Bool
  | .strwidth _ _ | .goff _ _ | .ghdr _ _ => true
  | _ => false

/-- The commands of 43_region.md, which have no result. -/
def isRegionCommand : Instr → Bool
  | .clear _ | .invert _ | .outline _ _ | .linefill _ _ => true
  | _ => false

/-- With the parameters `c`, command `i` turns FB into `F FB`, makes RESULT `v` (or leaves it where `v` is none) and
does nothing else, whatever the state holds besides. -/
def ActsBy (c : Config) (i : Instr) (F : List Word → List Word) (v : Option Word) : Prop :=
  ∀ s : State, s.cfg = c → exec i s = .next ((s.withFb (F s.fb)).withResult (v.getD s.result))

/-- With the parameters `c`, command `i` has one bit-local action on every state; a query's leaves FB, a region
command's leaves RESULT. -/
def HasAction (c : Config) (i : Instr) : Prop :=
  ∃ F v, BitLocal F ∧ ActsBy c i F v ∧ (isQuery i = true → F = fun fb => fb) ∧ (isRegionCommand i = true → v = none)

/-- With the parameters `c`, command `i` is refused in every state, for a glyph that is not readable. -/
def AlwaysRefused (c : Config) (i : Instr) : Prop :=
  ¬ fontsReadable c ∧ ∀ s : State, s.cfg = c → ∃ r, exec i s = .refused r

theorem hasAction_of_fbUpdate {c : Config} {i : Instr} (hi : isQuery i = false) {F : List Word → List Word}
    (hF : BitLocal F) (h : ∀ s : State, s.cfg = c → exec i s = .next (s.withFb (F s.fb))) : HasAction c i :=
  ⟨F, none, hF, h, by simp [hi], fun _ => rfl⟩

theorem hasAction_of_result {c : Config} {i : Instr} (hi : isRegionCommand i = false) {v : Word}
    (h : ∀ s : State, s.cfg = c → exec i s = .next (s.withResult v)) : HasAction c i :=
  ⟨_, some v, bitLocal_id, h, fun _ => rfl, by simp [hi]⟩

/-- A region command checks its operands against the parameters, then updates FB or is rejected (43_region.md
R150). -/
theorem hasAction_of_check {c : Config} {i : Instr} (hi : isQuery i = false) (ok : Config → Bool)
    {F : Config → List Word → List Word} (hF : BitLocal (F c))
    (h : ∀ s : State, exec i s = if ok s.cfg then .next (s.withFb (F s.cfg s.fb)) else reject s) : HasAction c i := by
  cases hok : ok c with
  | true => exact hasAction_of_fbUpdate hi hF fun s hs => by simp [h, hs, hok]
  | false => exact hasAction_of_fbUpdate hi bitLocal_id fun s hs => by simp [h, hs, hok, reject]

/-- A draw that never looks at FB is refused in every state or has one action. -/
theorem draw_refused_or_hasAction {c : Config} {i : Instr} {f : FontNo} (hq : isQuery i = false)
    (hr : isRegionCommand i = false) {draw : List Word → Option (List Word × Nat)}
    (hexec : ∀ s : State, s.cfg = c → exec i s = finishDraw f s (draw s.fb))
    (hreadable : fontsReadable c → ∃ p, draw [] = some p)
    (huniform : (∀ fb, draw fb = none) ∨
      ∃ adv m, ∀ fb, ∃ fb', draw fb = some (fb', adv) ∧ XorBy m fb fb') :
    AlwaysRefused c i ∨ HasAction c i := by
  rcases huniform with hnone | ⟨adv, m, hsome⟩
  · refine .inl ⟨fun hf => ?_, fun s hs => ⟨_, by rw [hexec s hs, hnone]; rfl⟩⟩
    obtain ⟨p, hp⟩ := hreadable hf
    simp [hnone] at hp
  · choose F hdraw hxor using hsome
    refine .inr ⟨F, some (BitVec.ofNat 32 adv), bitLocal_of_xorBy hxor, fun s hs => ?_, by simp [hq], by simp [hr]⟩
    rw [hexec s hs, hdraw]
    rfl

theorem strwidth_refused_or_hasAction (c : Config) (f : FontNo) (str : List CodePoint) :
    AlwaysRefused c (.strwidth f str) ∨ HasAction c (.strwidth f str) := by
  by_cases hempty : str.isEmpty = true
  · exact .inr (hasAction_of_result rfl fun s _ => if_pos hempty)
  cases hsum : widthSum (c.font f) str with
  | some total =>
    exact .inr (hasAction_of_result rfl (v := BitVec.ofNat 32 (total - 1)) fun s hs => by
      simp [exec, execStrwidth, hempty, hs, hsum])
  | none =>
    refine .inl ⟨fun hf => ?_, fun s hs => ⟨.fontReadOutOfRange f, by simp [exec, execStrwidth, hempty, hs, hsum]⟩⟩
    obtain ⟨cp, -, hnone⟩ := (widthSum_eq_none str).1 hsum
    simpa [glyphReadable, hnone] using hf f cp

theorem ghdr_hasAction (c : Config) (f : FontNo) (index : Word) : HasAction c (.ghdr f index) := by
  cases hread : fontRead (c.font f) index.toNat with
  | some hw =>
    exact hasAction_of_result rfl (v := headerResult (header hw)) fun s hs => by simp [exec, execGhdr, hs, hread]
  | none => exact hasAction_of_result rfl (v := 0) fun s hs => by simp [exec, execGhdr, hs, hread, rejectZero]

/-- What a command does is a function of the parameters and FB alone: it is refused in every state with these
parameters, or has one action on all of them. -/
theorem exec_refused_or_hasAction (c : Config) (i : Instr) : AlwaysRefused c i ∨ HasAction c i := by
  cases i with
  | xorchar f r x y cp =>
    refine draw_refused_or_hasAction rfl rfl (f := f) (fun s hs => by rw [exec, execXorchar, hs]) (fun hf => ?_)
      (xorCharCore_uniform c (c.font f) r x.toNat y.toNat cp)
    obtain ⟨fb, hdraw, -⟩ := xorCharCore_readable (c := c) (hf f cp) r x.toNat y.toNat []
    exact ⟨_, hdraw⟩
  | drawstr f r x y str =>
    refine draw_refused_or_hasAction rfl rfl (f := f) (fun s hs => by rw [exec, execDrawstr, hs]) (fun hf => ?_)
      (drawChars_uniform c (c.font f) r y.toNat str x.toNat)
    obtain ⟨fb, hdraw, -⟩ := drawChars_readable (c := c) r y.toNat str x.toNat [] fun cp _ => hf f cp
    exact ⟨_, hdraw⟩
  | strwidth f str => exact strwidth_refused_or_hasAction c f str
  | clear r =>
    exact .inr (hasAction_of_check rfl (regionOk · r) (F := fun c => overRegion (fbOr c) r)
      (bitLocal_overRegion (bitLocal_fbOr c) r) fun _ => rfl)
  | invert r =>
    obtain ⟨m, hm⟩ := overRegion_xorBy c r
    exact .inr (hasAction_of_check rfl (regionOk · r) (F := fun c => overRegion (fbXor c) r)
      (bitLocal_of_xorBy hm) fun _ => rfl)
  | outline y0 y1 =>
    exact .inr (hasAction_of_check rfl (outlineOk · y0.toNat y1.toNat)
      (F := fun c => forLoop y0.toNat y1.toNat fun py =>
        setLine c py (patternWord (outlinePattern c y0.toNat y1.toNat py)))
      (bitLocal_forLoop (fun py => bitLocal_setLine c py _) _ _) fun _ => rfl)
  | linefill y pat =>
    exact .inr (hasAction_of_check rfl (fun c => decide (y.toNat < c.lines))
      (F := fun c => setLine c y.toNat fun wl => pat.getD wl 0) (bitLocal_setLine c _ _)
      fun s => by simp [exec, execLinefill])
  | goff f cp => exact .inr (hasAction_of_result rfl fun s hs => by rw [exec, execGoff, hs])
  | ghdr f index => exact .inr (ghdr_hasAction c f index)

/-- A command that completes has an action, and its outcome is that action. -/
theorem action_of_exec_next {i : Instr} {s t : State} (h : exec i s = .next t) :
    ∃ F v, BitLocal F ∧ ActsBy s.cfg i F v ∧ (isQuery i = true → F = fun fb => fb) ∧
      (isRegionCommand i = true → v = none) ∧ t = (s.withFb (F s.fb)).withResult (v.getD s.result) := by
  rcases exec_refused_or_hasAction s.cfg i with ⟨-, hrefused⟩ | ⟨F, v, hF, hacts, hquery, hregion⟩
  · obtain ⟨r, hr⟩ := hrefused s rfl
    rw [hr] at h
    cases h
  · have ht := hacts s rfl
    rw [h] at ht
    exact ⟨F, v, hF, hacts, hquery, hregion, Host.Outcome.next.inj ht⟩

/-! ### The statements about every command -/

/-- Settles O20: an action writes FB and RESULT, a query's keeps FB and a region command's keeps RESULT. -/
theorem commandsChangeOnlyFbAndResult : Obligations.CommandsChangeOnlyFbAndResult := by
  intro i s t h
  obtain ⟨F, v, -, -, hquery, hregion, rfl⟩ := action_of_exec_next h
  refine ⟨rfl, ?_⟩
  have hfb : isQuery i = true → F s.fb = s.fb := fun hi => by rw [hquery hi]
  have hresult : isRegionCommand i = true → v.getD s.result = s.result := fun hi => by rw [hregion hi]; rfl
  cases i with
  | xorchar | drawstr => trivial
  | strwidth | goff | ghdr => exact hfb rfl
  | clear | invert | outline | linefill => exact hresult rfl

/-- Settles O22: the action is the same on the other frame buffer, and bit-local. -/
theorem noCommandBranchesOnFbContent : Obligations.NoCommandBranchesOnFbContent := by
  intro i s t fb h
  obtain ⟨F, v, hF, hacts, -, -, rfl⟩ := action_of_exec_next h
  exact ⟨_, hacts (s.withFb fb) rfl, rfl, fun hlen => hF _ fb s.fb ⟨hlen, fun _ _ hP => hP⟩⟩

/-- Settles O23: the action is the same on the other registers. -/
theorem commandsReadNoHostRegister : Obligations.CommandsReadNoHostRegister := by
  intro i s t v b ws h
  obtain ⟨F, written, -, hacts, -, -, rfl⟩ := action_of_exec_next h
  refine ⟨_, hacts (((s.withResult v).withIll b).withCbuf ws) rfl, rfl, rfl, rfl, ?_⟩
  cases written with
  | some w => exact .inl rfl
  | none => exact .inr ⟨rfl, rfl⟩

/-- A command completes when the fonts are readable (10_state.md R25). -/
theorem exec_completes {s : State} (hf : fontsReadable s.cfg) (i : Instr) : ∃ t, exec i s = .next t := by
  rcases exec_refused_or_hasAction s.cfg i with ⟨hno, -⟩ | ⟨F, v, -, hacts, -⟩
  · exact absurd hf hno
  · exact ⟨_, hacts s rfl⟩

end Sys2Proof.Machine
end

section
/-! Proofs of the family 10_state.md: what every step keeps (R20, R21, R25, R28, R29). -/

namespace Sys2Proof.Machine

/-! ### The parameters -/

/-- Settles O18: no case of `step_next` writes the parameters. -/
theorem noStepChangesTheParameters : Obligations.NoStepChangesTheParameters := by
  intro s t h
  rcases step_next h with ⟨-, rfl⟩ | ⟨m, ms, -, ⟨v, -, ⟨-, rfl⟩ | ⟨-, i, -, hexec⟩ | ⟨-, -, rfl⟩⟩ | ⟨d, rfl⟩ |
    ⟨j, v, -, -, rfl⟩ | ⟨-, rfl⟩⟩
  · rfl
  · rfl
  · obtain ⟨fb, v, rfl, -⟩ := exec_next hexec
    rfl
  · rfl
  · rfl
  · rfl
  · rfl

/-! ### The invariant -/

/-- A word that does not complete the command leaves it unfinished (10_state.md R29). -/
theorem cbufPending_append {ws : List Word} {v : Word} (h : cbufPending ws = true)
    (hc : commandComplete (ws ++ [v]) = false) : cbufPending (ws ++ [v]) = true := by
  cases ws with
  | nil =>
    simp only [List.nil_append, commandComplete_cons, cbufPending, decide_eq_false_iff_not, decide_eq_true_eq,
      List.length_nil] at hc ⊢
    omega
  | cons w0 ops =>
    simp only [List.cons_append, commandComplete_cons, cbufPending, decide_eq_false_iff_not, decide_eq_true_eq,
      List.length_append, List.length_singleton] at h hc ⊢
    omega

/-- Settles O17, by the cases of `step_next`. -/
theorem stepKeepsTheInvariant : Obligations.StepKeepsTheInvariant := by
  rintro s t ⟨hok, hwf, hpending⟩ h
  rcases step_next h with ⟨-, rfl⟩ | ⟨m, ms, -, ⟨v, -, ⟨hc, rfl⟩ | ⟨-, i, -, hexec⟩ | ⟨-, -, rfl⟩⟩ | ⟨d, rfl⟩ |
    ⟨j, v, -, -, rfl⟩ | ⟨-, rfl⟩⟩
  · exact ⟨hok, hwf, hpending⟩
  · exact ⟨hok, hwf, cbufPending_append hpending hc⟩
  · obtain ⟨fb, v, rfl, hlen⟩ := exec_next hexec
    exact ⟨hok, fb_wf_of_length hlen hwf, rfl⟩
  · exact ⟨hok, hwf, rfl⟩
  · exact ⟨hok, hwf, hpending⟩
  · exact ⟨hok, fbWrite_wf hwf j v, hpending⟩
  · exact ⟨hok, freeFb_wf s.cfg (s.resets + 1), rfl⟩

/-! ### ILL -/

/-- Settles O21, by the cases of `step_next`: all but an illegal command and a reset keep ILL. -/
theorem onlyIllegalCommandsAndResetChangeIll : Obligations.OnlyIllegalCommandsAndResetChangeIll := by
  intro s t h hne
  rcases step_next h with ⟨-, rfl⟩ | ⟨m, ms, hin, ⟨v, rfl, ⟨-, rfl⟩ | ⟨-, i, -, hexec⟩ | ⟨hc, ⟨e, he⟩, rfl⟩⟩ | ⟨d, rfl⟩ |
    ⟨j, v, -, -, rfl⟩ | ⟨rfl, rfl⟩⟩
  · exact absurd rfl hne
  · exact absurd rfl hne
  · obtain ⟨fb, v, rfl, -⟩ := exec_next hexec
    exact absurd rfl hne
  · obtain ⟨w0, ops, hws⟩ : ∃ w0 ops, s.cbuf ++ [v] = w0 :: ops := List.exists_cons_of_ne_nil (by simp)
    rw [hws] at hc he
    have hlen : ops.length = w0.toNat % 2 ^ 16 := by simpa [lenField_eq_mod] using hc
    exact .inl ⟨rfl, v, ms, w0, ops, e, hin, hws, hlen, he⟩
  · exact absurd rfl hne
  · exact absurd rfl hne
  · exact .inr ⟨rfl, ms, hin⟩

/-! ### Completion -/

/-- A complete command is run or discarded, with readable fonts never refused. -/
theorem runCommand_completes {s : State} (hf : fontsReadable s.cfg) (ws : List Word) :
    ∃ t, runCommand ws s = .next t := by
  unfold runCommand
  cases decode s.cfg.wpl ws with
  | ok i => exact exec_completes hf i
  | error e => exact ⟨_, rfl⟩

theorem pushCmd_completes {s : State} (hf : fontsReadable s.cfg) (v : Word) : ∃ t, pushCmd v s = .next t := by
  cases hc : commandComplete (s.cbuf ++ [v]) with
  | true => simpa [pushCmd, hc] using runCommand_completes (s := s.withCbuf []) hf _
  | false => exact ⟨s.withCbuf (s.cbuf ++ [v]), by simp [pushCmd, hc]⟩

/-- Every move of a host that stays inside FB completes. -/
theorem hostMove_completes {s : State} (hf : fontsReadable s.cfg) {m : HostMove}
    (hm : hostMoveInRange s.cfg m = true) : ∃ t, hostMove m s = .next t := by
  cases m with
  | regWrite r v =>
    cases r with
    | cmd => exact pushCmd_completes hf v
    | result | status => exact ⟨s, rfl⟩
  | regRead r => exact ⟨_, rfl⟩
  | fbWrite j v => exact ⟨_, if_pos (of_decide_eq_true hm)⟩
  | fbRead j => exact ⟨_, if_pos (of_decide_eq_true hm)⟩
  | reset => exact ⟨_, rfl⟩

/-- A step from a safe state completes. -/
theorem step_completes {s : State} (h : s.Safe) : ∃ t, step s = .next t := by
  obtain ⟨hf, hin⟩ := h
  cases hms : s.input with
  | nil => exact ⟨s, by simp [step, hms]⟩
  | cons m ms =>
    rw [step_of_move hms]
    exact hostMove_completes (s := s.withInput ms) hf (hin m (by simp [hms]))

/-- Settles O19: the step completes, and leaves the parameters and a part of the host's moves. -/
theorem safeStepsAlwaysComplete : Obligations.SafeStepsAlwaysComplete := by
  intro s hsafe
  obtain ⟨t, ht⟩ := step_completes hsafe
  obtain ⟨hf, hin⟩ := hsafe
  have hcfg : t.cfg = s.cfg := noStepChangesTheParameters s t ht
  refine ⟨t, ht, hcfg ▸ hf, fun m hm => ?_⟩
  rw [step_input ht] at hm
  rw [hcfg]
  exact hin m (List.mem_of_mem_tail hm)

end Sys2Proof.Machine
end

section
/-! Proofs of the family 20_memory.md: the host's accesses to FB between commands (R55, R69). -/

namespace Sys2Proof.Machine

theorem step_fbWrite {s : State} {i : Nat} {v : Word} {ms : List HostMove} (h : s.input = .fbWrite i v :: ms)
    (hi : i < s.cfg.fbWords) : step s = .next ((s.withInput ms).withFb (fbWrite s.fb i v)) :=
  (step_of_move h).trans (if_pos hi)

theorem step_fbRead {s : State} {i : Nat} {ms : List HostMove} (h : s.input = .fbRead i :: ms)
    (hi : i < s.cfg.fbWords) : step s = .next ((s.withInput ms).withReadData (fbRead s.fb i)) :=
  (step_of_move h).trans (if_pos hi)

theorem step_fbWrite_outside {s : State} {i : Nat} {v : Word} {ms : List HostMove} (h : s.input = .fbWrite i v :: ms)
    (hi : s.cfg.fbWords ≤ i) : step s = .fault (.noSuchFbWord i) :=
  (step_of_move h).trans (if_neg (Nat.not_lt.2 hi))

theorem step_fbRead_outside {s : State} {i : Nat} {ms : List HostMove} (h : s.input = .fbRead i :: ms)
    (hi : s.cfg.fbWords ≤ i) : step s = .fault (.noSuchFbWord i) :=
  (step_of_move h).trans (if_neg (Nat.not_lt.2 hi))

theorem fbRead_fbWrite_same {fb : List Word} {i : Nat} (hi : i < fb.length) (v : Word) :
    fbRead (fbWrite fb i v) i = v := by
  rw [fbRead_fbWrite, if_pos ⟨rfl, hi⟩]

theorem fbRead_fbWrite_of_ne (fb : List Word) {i j : Nat} (hji : j ≠ i) (v : Word) :
    fbRead (fbWrite fb i v) j = fbRead fb j := by
  rw [fbRead_fbWrite, if_neg fun h => hji h.1.symm]

/-- Settles O11: under the invariant the index is inside FB's list, so the word written is the word read back. -/
theorem hostFrameBufferAccess : Obligations.HostFrameBufferAccess := by
  rintro s ms i v ⟨-, hwf, -⟩ hi
  have hlen : i < s.fb.length := (wf_iff _ _).1 hwf ▸ hi
  exact ⟨fun hin => ⟨_, step_fbWrite hin hi, rfl, fbWrite_length s.fb i v, fbRead_fbWrite_same hlen v,
    fun _ hj => fbRead_fbWrite_of_ne s.fb hj v⟩, fun hin => step_fbRead hin hi⟩

/-- Settles O12, for the write and for the read. -/
theorem hostAccessOutsideFbFaults : Obligations.HostAccessOutsideFbFaults := by
  rintro s ms i v hi (hin | hin)
  · exact step_fbWrite_outside hin hi
  · exact step_fbRead_outside hin hi

end Sys2Proof.Machine
end

section
/-! Proofs of the family 20_memory.md: when a command is refused for a read outside its font's data (R58;
93_implementation_defined.md U1). -/

namespace Sys2Proof.Machine

/-- A drawing command is refused exactly when its draw has no result. -/
theorem finishDraw_refused_iff {f : FontNo} {s : State} {o : Option (List Word × Nat)} :
    finishDraw f s o = .refused (.fontReadOutOfRange f) ↔ o = none := by
  cases o <;> simp [finishDraw]

/-! ### One character -/

/-- A character's draw has no result exactly when the Region is valid and a read is outside the font's data: the header,
or of an accepted glyph the payload word of the last drawn row's last pixel. -/
theorem xorCharCore_eq_none_iff (c : Config) (fnt : Font) (r : Region) (x y : Nat) (cp : CodePoint) (fb : List Word) :
    xorCharCore c fnt r x y cp fb = none ↔
      regionOk c r = true ∧
        (glyphHeader fnt cp = none ∨
          ∃ hd, glyphHeader fnt cp = some hd ∧ hd.width.toNat ≤ 32 ∧ 1 ≤ hd.width.toNat ∧
            let rows := min hd.height.toNat (r.y1.toNat - (y + hd.yOffset.toNat))
            1 ≤ rows ∧ fnt.data.length ≤ glyphIndex fnt cp + 1 + (rows * hd.width.toNat - 1) / 32) := by
  rcases xorCharCore_cases c fnt r x y cp fb with ⟨hr, hcore⟩ | ⟨hr, hmissing, hcore⟩ | ⟨hr, hd, hh, hglyph⟩
  · simp [hcore, hr]
  · simp [hcore, hr, hmissing]
  · rcases hglyph with ⟨hwide, hcore⟩ | ⟨hw, ⟨hw1, hrows, hpayload, hcore⟩ | ⟨hinside, fb', hcore, -⟩⟩
    · simp [hcore, hr, hh, hwide]
    · simpa only [hcore, true_iff] using ⟨hr, .inr ⟨hd, hh, hw, hw1, hrows, hpayload⟩⟩
    · simpa [hcore, hr, hh, hw] using hinside

/-- Settles O33: the command is refused exactly when its draw has no result. -/
theorem xorcharRefusedExactlyWhenAFontReadIsOutOfRange :
    Obligations.XorcharRefusedExactlyWhenAFontReadIsOutOfRange :=
  fun _ r x y cp s => finishDraw_refused_iff.trans (xorCharCore_eq_none_iff s.cfg _ r x.toNat y.toNat cp s.fb)

/-! ### Strings -/

/-- In a valid Region one missing header leaves the whole string without a result, wherever the character stands. -/
theorem drawChars_eq_none_of_missing_header {c : Config} {fnt : Font} {r : Region} {y : Nat} {cp : CodePoint}
    (hr : regionOk c r = true) (hmissing : glyphHeader fnt cp = none) {str : List CodePoint} (hmem : cp ∈ str)
    (ax : Nat) (fb : List Word) : drawChars c fnt r y str ax fb = none := by
  induction str generalizing ax fb with
  | nil => simp at hmem
  | cons first rest ih =>
    rcases List.mem_cons.1 hmem with rfl | hrest
    · have hcore : xorCharCore c fnt r ax y cp fb = none :=
        (xorCharCore_eq_none_iff c fnt r ax y cp fb).2 ⟨hr, .inl hmissing⟩
      simp [drawChars, hcore]
    · cases hcore : xorCharCore c fnt r ax y first fb <;> simp [drawChars, hcore, ih hrest]

theorem exec_strwidth_of_missing_header {f : FontNo} {str : List CodePoint} {cp : CodePoint} {s : State}
    (hmem : cp ∈ str) (hmissing : glyphHeader (s.cfg.font f) cp = none) :
    exec (.strwidth f str) s = .refused (.fontReadOutOfRange f) := by
  have hne : str ≠ [] := List.ne_nil_of_mem hmem
  have hsum : widthSum (s.cfg.font f) str = none := (widthSum_eq_none str).2 ⟨cp, hmem, hmissing⟩
  simp [exec, execStrwidth, hne, hsum]

theorem exec_drawstr_of_missing_header {f : FontNo} {r : Region} {str : List CodePoint} {cp : CodePoint} {s : State}
    (hr : regionOk s.cfg r = true) (hmem : cp ∈ str) (hmissing : glyphHeader (s.cfg.font f) cp = none) (x y : Coord) :
    exec (.drawstr f r x y str) s = .refused (.fontReadOutOfRange f) :=
  finishDraw_refused_iff.2 (drawChars_eq_none_of_missing_header hr hmissing hmem x.toNat s.fb)

/-- Settles O42: neither the width sum nor the draw of the string has a result. -/
theorem stringCommandsRefuseAMissingHeader : Obligations.StringCommandsRefuseAMissingHeader := by
  intro f r x y pre post cp s hmissing
  have hmem : cp ∈ pre ++ cp :: post := List.mem_append_cons_self
  exact ⟨exec_strwidth_of_missing_header hmem hmissing,
    fun hr => exec_drawstr_of_missing_header hr hmem hmissing x y⟩

end Sys2Proof.Machine
end

section
/-! Proofs of the family 30_encoding.md: the decoder and the encoder are inverse to each other (R80 to R93). -/

namespace Sys2Proof

/-- Settles O1: the encoding is framed by its header's LEN and its operand words are read back. -/
theorem decodeEncodeGivesTheCommandBack : Obligations.DecodeEncodeGivesTheCommandBack :=
  fun _ _ => Machine.decode_encode

/-! ### What each format accepts (30_encoding.md R83) -/

/-- `ops` are the operand words of `i` under a header with this OP and FONT, and `i` is well-formed when a LEN can count
them. -/
def OperandsOf (wpl : Nat) (op : BitVec 4) (font : BitVec 2) (ops : List Word) (i : Instr) : Prop :=
  encode i = headerWord op font ops.length :: ops ∧ (ops.length < 65536 → i.wellFormed wpl = true)

section

variable {wpl : Nat} {f : FontNo} {ops : List Word} {i : Instr}

theorem decodeXorchar_ok (h : decodeXorchar f ops = .ok i) : OperandsOf wpl 0x1 (fontBits f) ops i := by
  unfold decodeXorchar at h
  split at h
  · rename_i xb yb an ch
    split at h
    · rename_i hch
      cases h
      exact ⟨by simp [encode, xbWord_regionOf, ybWord_regionOf, halves_hi_lo, chWord_chPoint ch hch], fun _ => rfl⟩
    · cases h
  · cases h

theorem decodeDrawstr_ok (h : decodeDrawstr f ops = .ok i) : OperandsOf wpl 0x2 (fontBits f) ops i := by
  unfold decodeDrawstr at h
  split at h
  · rename_i xb yb an chs
    split at h
    · rename_i hchs
      cases h
      refine ⟨?_, fun hlt => ?_⟩
      · simp [encode, xbWord_regionOf, ybWord_regionOf, halves_hi_lo, words_of_chars chs hchs, Nat.add_comm 3,
          -List.map_map]
      · simp only [List.length_cons] at hlt
        simpa [Instr.wellFormed] using (by omega : chs.length ≤ 65532)
    · cases h
  · cases h

theorem decodeStrwidth_ok (h : decodeStrwidth f ops = .ok i) : OperandsOf wpl 0x3 (fontBits f) ops i := by
  unfold decodeStrwidth at h
  split at h
  · rename_i hchs
    cases h
    refine ⟨by simp [encode, words_of_chars ops hchs, -List.map_map], fun hlt => ?_⟩
    simpa [Instr.wellFormed] using Nat.le_of_lt_succ hlt
  · cases h

theorem decodeRegion_ok {mk : Region → Instr} (h : decodeRegion mk ops = .ok i) :
    ∃ r, i = mk r ∧ ops = [xbWord r, ybWord r] := by
  unfold decodeRegion at h
  split at h
  · rename_i xb yb
    cases h
    exact ⟨regionOf xb yb, rfl, by rw [xbWord_regionOf, ybWord_regionOf]⟩
  · cases h

theorem decodeClear_ok (h : decodeRegion .clear ops = .ok i) : OperandsOf wpl 0x4 0 ops i := by
  obtain ⟨r, rfl, rfl⟩ := decodeRegion_ok h
  exact ⟨rfl, fun _ => rfl⟩

theorem decodeInvert_ok (h : decodeRegion .invert ops = .ok i) : OperandsOf wpl 0x5 0 ops i := by
  obtain ⟨r, rfl, rfl⟩ := decodeRegion_ok h
  exact ⟨rfl, fun _ => rfl⟩

theorem decodeOutline_ok (h : decodeOutline ops = .ok i) : OperandsOf wpl 0x6 0 ops i := by
  unfold decodeOutline at h
  split at h
  · cases h
    exact ⟨by simp [encode, halves_hi_lo], fun _ => rfl⟩
  · cases h

theorem decodeLinefill_ok (h : decodeLinefill wpl ops = .ok i) : OperandsOf wpl 0x7 0 ops i := by
  unfold decodeLinefill at h
  split at h
  · rename_i ln pat
    split at h
    · rename_i hlen
      split at h
      · rename_i hhi
        cases h
        have hln : halves 0 (loHalf ln) = ln := by rw [← hhi, halves_hi_lo]
        exact ⟨by simpa [encode, Nat.add_comm 1] using hln, fun _ => decide_eq_true hlen⟩
      · cases h
    · cases h
  · cases h

theorem decodeGoff_ok (h : decodeGoff f ops = .ok i) : OperandsOf wpl 0x8 (fontBits f) ops i := by
  unfold decodeGoff at h
  split at h
  · rename_i ch
    split at h
    · rename_i hch
      cases h
      exact ⟨by simp [encode, chWord_chPoint ch hch], fun _ => rfl⟩
    · cases h
  · cases h

theorem decodeGhdr_ok (h : decodeGhdr f ops = .ok i) : OperandsOf wpl 0x9 (fontBits f) ops i := by
  unfold decodeGhdr at h
  split at h
  · cases h
    exact ⟨rfl, fun _ => rfl⟩
  · cases h

/-! ### What the decoder accepts (30_encoding.md R93) -/

/-- A format that takes a font reads it from the header's FONT (30_encoding.md R86). -/
theorem operandsOf_of_withFont {w0 : Word} {k : FontNo → Except Illegal Instr} {op : BitVec 4}
    (h : withFont w0 k = .ok i) (hk : ∀ f, k f = .ok i → OperandsOf wpl op (fontBits f) ops i) :
    OperandsOf wpl op (fontField w0) ops i := by
  obtain ⟨f, hfont, hok⟩ := withFont_ok h
  exact hfont ▸ hk f hok

/-- A format without a font has FONT 0 in its header (30_encoding.md R86). -/
theorem operandsOf_of_withoutFont {w0 : Word} {k : Except Illegal Instr} {op : BitVec 4}
    (h : withoutFont w0 k = .ok i) (hk : k = .ok i → OperandsOf wpl op 0 ops i) :
    OperandsOf wpl op (fontField w0) ops i := by
  obtain ⟨hfont, hok⟩ := withoutFont_ok h
  exact hfont ▸ hk hok

/-- An accepted command has no reserved bit, and its OP picked the format of its operand words. -/
theorem decodeCommand_ok {w0 : Word} (h : decodeCommand wpl w0 ops = .ok i) :
    reservedField w0 = 0 ∧ OperandsOf wpl (opField w0) (fontField w0) ops i := by
  unfold decodeCommand at h
  split at h
  · cases h
  · rename_i hreserved
    refine ⟨not_not.1 hreserved, ?_⟩
    have hop {n : BitVec 4} (hn : (opField w0).toNat = n.toNat) : opField w0 = n := BitVec.eq_of_toNat_eq hn
    split at h
    next h1 => exact hop (n := 0x1) h1 ▸ operandsOf_of_withFont h fun _ => decodeXorchar_ok
    next h2 => exact hop (n := 0x2) h2 ▸ operandsOf_of_withFont h fun _ => decodeDrawstr_ok
    next h3 => exact hop (n := 0x3) h3 ▸ operandsOf_of_withFont h fun _ => decodeStrwidth_ok
    next h4 => exact hop (n := 0x4) h4 ▸ operandsOf_of_withoutFont h decodeClear_ok
    next h5 => exact hop (n := 0x5) h5 ▸ operandsOf_of_withoutFont h decodeInvert_ok
    next h6 => exact hop (n := 0x6) h6 ▸ operandsOf_of_withoutFont h decodeOutline_ok
    next h7 => exact hop (n := 0x7) h7 ▸ operandsOf_of_withoutFont h decodeLinefill_ok
    next h8 => exact hop (n := 0x8) h8 ▸ operandsOf_of_withFont h fun _ => decodeGoff_ok
    next h9 => exact hop (n := 0x9) h9 ▸ operandsOf_of_withFont h fun _ => decodeGhdr_ok
    next => cases h

/-- An accepted sequence is its command's header, rebuilt from its fields, and its command's operand words. -/
theorem encode_of_decode_ok {ws : List Word} (h : decode wpl ws = .ok i) :
    i.wellFormed wpl = true ∧ encode i = ws := by
  obtain ⟨w0, ops, rfl, hlen, hcmd⟩ := decode_ok_complete h
  obtain ⟨hreserved, hencode, hwf⟩ := decodeCommand_ok hcmd
  exact ⟨hwf (hlen ▸ lenField_lt w0), by rw [hencode, hlen, headerWord_fields w0 hreserved]⟩

end

/-- Settles O2, by the format that OP picks: each accepts only words that the encoder builds. -/
theorem decodedWordsAreTheEncodingOfTheCommand : Obligations.DecodedWordsAreTheEncodingOfTheCommand :=
  fun _ _ _ => encode_of_decode_ok

/-- Settles O3: the decoder evaluated on each of the fixed word sequences. -/
theorem sampleWordsDecode : Obligations.SampleWordsDecode := by
  unfold Obligations.SampleWordsDecode
  decide

end Sys2Proof
end

section
/-! Proofs of the family 30_encoding.md: the decoder refuses a complete command exactly by the clauses of R87. -/

namespace Sys2Proof

/-! ### The fields as numbers (30_encoding.md R81, R82) -/

theorem opField_toNat (w : Word) : (opField w).toNat = w.toNat / 2 ^ 28 := by
  have := w.isLt
  rw [opField, BitVec.extractLsb'_toNat, Nat.shiftRight_eq_div_pow, Nat.mod_eq_of_lt (by omega)]

theorem fontField_toNat (w : Word) : (fontField w).toNat = w.toNat / 2 ^ 26 % 4 := by
  rw [fontField, BitVec.extractLsb'_toNat, Nat.shiftRight_eq_div_pow]

theorem fontField_eq_zero_iff (w : Word) : fontField w = 0 ↔ w.toNat / 2 ^ 26 % 4 = 0 := by
  rw [← BitVec.toNat_inj, fontField_toNat]
  rfl

theorem reservedField_eq_zero_iff (w : Word) : reservedField w = 0 ↔ w.toNat / 2 ^ 16 % 2 ^ 10 = 0 := by
  rw [← BitVec.toNat_inj, reservedField, BitVec.extractLsb'_toNat, Nat.shiftRight_eq_div_pow]
  rfl

theorem hiHalf_eq_zero_iff (w : Word) : hiHalf w = 0 ↔ w.toNat < 2 ^ 16 := by
  have := w.isLt
  have hhi : (hiHalf w).toNat = w.toNat / 2 ^ 16 := by
    rw [hiHalf, BitVec.extractLsb'_toNat, Nat.shiftRight_eq_div_pow, Nat.mod_eq_of_lt (by omega)]
  rw [← BitVec.toNat_inj, hhi]
  exact Nat.div_eq_zero_iff_lt (by decide)

theorem fontOf_eq_none_iff (b : BitVec 2) : fontOf b = none ↔ b.toNat = 3 := by
  revert b
  decide

/-- Some word of the list is no `CH` word. -/
theorem not_all_isCH_iff (chs : List Word) :
    ¬ chs.all isCH = true ↔ ∃ (j : Nat) (v : Word), chs[j]? = some v ∧ 2 ^ 21 ≤ v.toNat := by
  simp only [List.all_eq_true, isCH_iff, not_forall, not_lt, List.mem_iff_getElem?, exists_prop]
  exact ⟨fun ⟨v, ⟨j, hj⟩, hv⟩ => ⟨j, v, hj, hv⟩, fun ⟨j, v, hj, hv⟩ => ⟨v, ⟨j, hj⟩, hv⟩⟩

/-! ### Refusals -/

/-- The decoder's answer is a refusal, whatever clause it names. -/
def Refused (o : Except Illegal Instr) : Prop := ∃ e, o = .error e

@[simp] theorem refused_error (e : Illegal) : Refused (.error e) := ⟨e, rfl⟩

@[simp] theorem not_refused_ok (i : Instr) : ¬ Refused (.ok i) := fun ⟨_, h⟩ => nomatch h

/-- An answer behind a check is a refusal when the check fails or the answer is one. -/
@[simp] theorem refused_ite (p : Prop) [Decidable p] (o : Except Illegal Instr) (e : Illegal) :
    Refused (if p then o else .error e) ↔ ¬ p ∨ Refused o := by
  split <;> simp [*]

/-! ### Clause 3: the font (30_encoding.md R86) -/

theorem withFont_refused_iff {w0 : Word} {k : FontNo → Except Illegal Instr} {P : Prop}
    (hk : ∀ f, Refused (k f) ↔ P) : Refused (withFont w0 k) ↔ w0.toNat / 2 ^ 26 % 4 = 3 ∨ P := by
  rw [← fontField_toNat, ← fontOf_eq_none_iff, withFont]
  cases fontOf (fontField w0) with
  | none => simp
  | some f => simp [hk]

theorem withoutFont_refused_iff {w0 : Word} {k : Except Illegal Instr} {P : Prop} (hk : Refused k ↔ P) :
    Refused (withoutFont w0 k) ↔ w0.toNat / 2 ^ 26 % 4 ≠ 0 ∨ P := by
  rw [withoutFont, refused_ite, fontField_eq_zero_iff, hk]

/-! ### Clauses 4 to 6: what each format refuses (30_encoding.md R83) -/

section

variable (f : FontNo) (ops : List Word)

theorem decodeXorchar_refused_iff :
    Refused (decodeXorchar f ops) ↔ ops.length ≠ 4 ∨ ∃ v, ops[3]? = some v ∧ 2 ^ 21 ≤ v.toNat :=
  match ops with
  | [_, _, _, ch] => by simp [decodeXorchar, isCH_iff]
  | [] | [_] | [_, _] | [_, _, _] | _ :: _ :: _ :: _ :: _ :: _ => by simp [decodeXorchar]

theorem decodeDrawstr_refused_iff :
    Refused (decodeDrawstr f ops) ↔
      ops.length < 3 ∨ ∃ (j : Nat) (v : Word), ops[j]? = some v ∧ 2 ^ 21 ≤ v.toNat ∧ 3 ≤ j :=
  match ops with
  | xb :: yb :: an :: chs => by
    have hlen : ¬ (xb :: yb :: an :: chs).length < 3 := by simp
    rw [decodeDrawstr, refused_ite, not_all_isCH_iff]
    simp only [not_refused_ok, or_false, hlen, false_or]
    constructor
    · rintro ⟨j, v, hj, hv⟩
      exact ⟨j + 3, v, hj, hv, by omega⟩
    · rintro ⟨j, v, hj, hv, h3⟩
      obtain ⟨k, rfl⟩ := Nat.exists_eq_add_of_le' h3
      exact ⟨k, v, hj, hv⟩
  | [] | [_] | [_, _] => by simp [decodeDrawstr]

theorem decodeStrwidth_refused_iff :
    Refused (decodeStrwidth f ops) ↔ ∃ (j : Nat) (v : Word), ops[j]? = some v ∧ 2 ^ 21 ≤ v.toNat := by
  rw [decodeStrwidth, refused_ite, not_all_isCH_iff]
  simp

theorem decodeRegion_refused_iff (mk : Region → Instr) : Refused (decodeRegion mk ops) ↔ ops.length ≠ 2 :=
  match ops with
  | [_, _] => by simp [decodeRegion]
  | [] | [_] | _ :: _ :: _ :: _ => by simp [decodeRegion]

theorem decodeOutline_refused_iff : Refused (decodeOutline ops) ↔ ops.length ≠ 1 :=
  match ops with
  | [_] => by simp [decodeOutline]
  | [] | _ :: _ :: _ => by simp [decodeOutline]

theorem decodeLinefill_refused_iff (wpl : Nat) :
    Refused (decodeLinefill wpl ops) ↔ ops.length ≠ 1 + wpl ∨ ∃ v, ops[0]? = some v ∧ 2 ^ 16 ≤ v.toNat :=
  match ops with
  | ln :: pat => by
    rw [decodeLinefill, refused_ite, refused_ite, hiHalf_eq_zero_iff]
    simp [Nat.add_comm 1]
  | [] => by simp [decodeLinefill]; omega

theorem decodeGoff_refused_iff :
    Refused (decodeGoff f ops) ↔ ops.length ≠ 1 ∨ ∃ v, ops[0]? = some v ∧ 2 ^ 21 ≤ v.toNat :=
  match ops with
  | [ch] => by simp [decodeGoff, isCH_iff]
  | [] | _ :: _ :: _ => by simp [decodeGoff]

theorem decodeGhdr_refused_iff : Refused (decodeGhdr f ops) ↔ ops.length ≠ 1 :=
  match ops with
  | [_] => by simp [decodeGhdr]
  | [] | _ :: _ :: _ => by simp [decodeGhdr]

end

/-- Settles O4, by the format that OP picks: an OP without a format is clause 1, and each format refuses by
its own part of clauses 3 to 6. -/
theorem illegalExactlyWhenAClauseOfR87Holds : Obligations.IllegalExactlyWhenAClauseOfR87Holds := by
  intro wpl w0 ops hlen
  have hdecode : decode wpl (w0 :: ops) = decodeCommand wpl w0 ops := by simp [decode, lenField_eq_mod, hlen]
  change Refused (decode wpl (w0 :: ops)) ↔ _
  rw [hdecode, decodeCommand, ite_not, refused_ite, reservedField_eq_zero_iff, opField_toNat,
    ← hlen]
  generalize w0.toNat / 2 ^ 28 = op
  split
  next => simp [withFont_refused_iff (decodeXorchar_refused_iff · ops)]
  next => simp [withFont_refused_iff (decodeDrawstr_refused_iff · ops)]
  next => simp [withFont_refused_iff (decodeStrwidth_refused_iff · ops)]
  next => simp [withoutFont_refused_iff (decodeRegion_refused_iff ops _)]
  next => simp [withoutFont_refused_iff (decodeRegion_refused_iff ops _)]
  next => simp [withoutFont_refused_iff (decodeOutline_refused_iff ops)]
  next => simp [withoutFont_refused_iff (decodeLinefill_refused_iff ops wpl)]
  next => simp [withFont_refused_iff (decodeGoff_refused_iff · ops)]
  next => simp [withFont_refused_iff (decodeGhdr_refused_iff · ops)]
  next =>
    have hop : op = 0 ∨ 10 ≤ op := by grind
    simp [hop]

end Sys2Proof
end

section
/-! Proofs of the family 30_encoding.md: what an illegal command does (R88). -/

namespace Sys2Proof.Machine

theorem runCommand_of_decode_error {ws : List Word} {s : State} {e : Illegal} (h : decode s.cfg.wpl ws = .error e) :
    runCommand ws s = illegalCommand s := by
  simp [runCommand, h]

/-! ### ILL is sticky -/

/-- A step that is no reset keeps ILL set: nothing else clears it (10_state.md R28). -/
theorem ill_of_step {s t : State} (h : step s = .next t) (hill : s.ill = true)
    (hno : ∀ m ∈ s.input.head?, m ≠ .reset) : t.ill = true := by
  by_contra hclear
  rcases onlyIllegalCommandsAndResetChangeIll s t h (by simpa [hill] using hclear) with ⟨hset, -⟩ | ⟨-, ms, hin⟩
  · exact hclear hset
  · exact hno .reset (by simp [hin]) rfl

/-- A run that completes has completed its first step. -/
theorem run_succ_next {n : Nat} {s u : State} (h : Host.Core.run core (n + 1) s = .next u) :
    ∃ t, step s = .next t ∧ Host.Core.run core n t = .next u := by
  have hs : core.step s = step s := rfl
  simp only [Host.Core.run, hs] at h
  split at h
  · exact ⟨_, ‹_›, h⟩
  · cases h
  · cases h

/-- ILL stays set over any number of steps without a reset. -/
theorem ill_of_run {n : Nat} {s u : State} (hill : s.ill = true) (hno : ∀ m ∈ s.input.take n, m ≠ .reset)
    (h : Host.Core.run core n s = .next u) : u.ill = true := by
  induction n generalizing s with
  | zero =>
    cases h
    exact hill
  | succ n ih =>
    obtain ⟨t, hstep, hrest⟩ := run_succ_next h
    have hin : t.input = s.input.tail := step_input hstep
    cases hms : s.input with
    | nil => exact ih (ill_of_step hstep hill (by simp [hms])) (by simp [hin, hms]) hrest
    | cons m ms =>
      have hno' : ∀ m' ∈ m :: ms.take n, m' ≠ .reset := by simpa [hms] using hno
      refine ih (ill_of_step hstep hill (by simpa [hms] using hno' m List.mem_cons_self)) ?_ hrest
      simpa [hin, hms] using fun m' hm' => hno' m' (List.mem_cons_of_mem m hm')

/-- Settles O8: the step discards the complete command, and no later step but a reset clears ILL. -/
theorem illegalCommandIsConsumedAndFlagged : Obligations.IllegalCommandIsConsumedAndFlagged := by
  intro s v ms w0 ops e hin hws hlen hdecode
  have hcomplete : commandComplete (s.cbuf ++ [v]) = true := by simpa [hws, lenField_eq_mod] using hlen
  refine ⟨_, ?_, rfl, rfl, rfl, rfl, rfl, fun n u hno => ill_of_run rfl hno⟩
  rw [step_push_complete hin hcomplete, hws]
  exact runCommand_of_decode_error hdecode

end Sys2Proof.Machine
end

section
/-! Proofs of the family 40_glyphstore.md: the header fields (R110), the first matching range (R111, R112) and the
masked header word (R113). -/

namespace Sys2Proof.Machine

/-! ### Header fields (40_glyphstore.md R110) -/

/-- The document's unpack formula is a slice: within 32 bits, the shift to the left drops what stands above the field,
the shift to the right what stands below it. -/
theorem shiftUnpack_eq_slice (n : Nat) {k : Nat} (hk : k ≤ 24) :
    ((n <<< k) &&& 0xFFFFFFFF) >>> 24 = n / 2 ^ (24 - k) % 256 := by
  have hmask : (n <<< k) &&& 0xFFFFFFFF = n * 2 ^ k % (2 ^ 24 * 2 ^ 8) := by
    rw [Nat.shiftLeft_eq]
    exact Nat.and_two_pow_sub_one_eq_mod _ 32
  calc ((n <<< k) &&& 0xFFFFFFFF) >>> 24
      = n * 2 ^ k % (2 ^ 24 * 2 ^ 8) / 2 ^ 24 := by rw [hmask, Nat.shiftRight_eq_div_pow]
    _ = n * 2 ^ k / (2 ^ (24 - k) * 2 ^ k) % 256 := by
      rw [Nat.mod_mul_right_div_self, ← Nat.pow_add, Nat.sub_add_cancel hk, show 2 ^ 8 = 256 from rfl]
    _ = n / 2 ^ (24 - k) % 256 := by rw [Nat.mul_div_mul_right _ _ (Nat.two_pow_pos k)]

/-- A header is read from bits 23:0 alone: each field lies inside them. -/
theorem header_congr {a b : Word} (h : a.toNat % 2 ^ 24 = b.toNat % 2 ^ 24) : header a = header b := by
  have hw : (header a).width = (header b).width := by
    apply BitVec.eq_of_toNat_eq
    rw [header_width, header_width]
    omega
  have hh : (header a).height = (header b).height := by
    apply BitVec.eq_of_toNat_eq
    rw [header_height, header_height]
    omega
  have hy : (header a).yOffset = (header b).yOffset := by
    apply BitVec.eq_of_toNat_eq
    rw [header_yOffset, header_yOffset]
    omega
  exact (Header.mk.injEq ..).mpr ⟨hw, hh, hy⟩

/-- Settles O24: both the shift formula and the field of `header` are the same slice of the word's number. -/
theorem headerUnpacksTheThreeFields : Obligations.HeaderUnpacksTheThreeFields := by
  refine ⟨fun hw => ?_, fun _ _ => header_congr, by decide⟩
  rw [shiftUnpack_eq_slice _ (by decide), shiftUnpack_eq_slice _ (by decide), shiftUnpack_eq_slice _ (by decide)]
  exact ⟨header_width hw, header_height hw, by simpa using header_yOffset hw,
    header_width hw, header_height hw, header_yOffset hw⟩

/-! ### `GOFF` (40_glyphstore.md R111, R112) -/

/-- With no range that holds the character the offset is `REPL_f`. -/
theorem glyphOffset_of_unmapped {fnt : Font} {cp : CodePoint}
    (h : ∀ g ∈ fnt.ranges, ¬ (g.lo ≤ cp.toNat ∧ cp.toNat < g.lo + g.table.length)) :
    glyphOffset fnt cp = fnt.repl := by
  have hnone : rangesLookup (fnt.ranges ++ []) cp.toNat = none :=
    rangesLookup_append fnt.ranges [] fun g hg => (rangeLookup_eq_none g _).2 (h g hg)
  rw [List.append_nil] at hnone
  rw [glyphOffset, hnone, Option.getD_none]

/-- The first range that holds the character gives the offset. -/
theorem glyphOffset_of_first_match {fnt : Font} {cp : CodePoint} {pre post : List GlyphRange} {g : GlyphRange} {e : Word}
    (hranges : fnt.ranges = pre ++ g :: post)
    (hpre : ∀ g' ∈ pre, ¬ (g'.lo ≤ cp.toNat ∧ cp.toNat < g'.lo + g'.table.length))
    (hlo : g.lo ≤ cp.toNat) (hentry : g.table[cp.toNat - g.lo]? = some e) : glyphOffset fnt cp = e := by
  have hg : rangeLookup g cp.toNat = some e := by rw [rangeLookup, if_pos hlo, hentry]
  have hfound : rangesLookup fnt.ranges cp.toNat = some e := by
    rw [hranges, rangesLookup_append pre _ fun g' hg' => (rangeLookup_eq_none g' _).2 (hpre g' hg')]
    simp [rangesLookup, hg]
  rw [glyphOffset, hfound, Option.getD_some]

theorem exec_goff_of_glyphOffset {f : FontNo} {cp : CodePoint} {s : State} {off : Word}
    (h : glyphOffset (s.cfg.font f) cp = off) : exec (.goff f cp) s = .next (s.withResult off) := by
  rw [← h]
  rfl

/-- Settles O25: `GOFF` writes the glyph offset, which the ranges give in their order. -/
theorem goffReturnsTheFirstMatch : Obligations.GoffReturnsTheFirstMatch := by
  refine ⟨fun f cp s => ⟨fun h => ?_, fun pre g post e hranges hpre hlo hentry => ?_⟩, fun s hbold => ⟨rfl, ?_⟩⟩
  · exact exec_goff_of_glyphOffset (glyphOffset_of_unmapped h)
  · exact exec_goff_of_glyphOffset (glyphOffset_of_first_match hranges hpre hlo hentry)
  · have hoff : glyphOffset testFont0 0x40 = 5 := by decide
    exact exec_goff_of_glyphOffset (by rw [Config.font, hbold, hoff])

/-! ### `GHDR` (40_glyphstore.md R113) -/

theorem headerResult_toNat (hd : Header) :
    (headerResult hd).toNat = (hd.width.toNat <<< 16) ||| (hd.height.toNat <<< 8) ||| hd.yOffset.toNat := by
  rw [headerResult, BitVec.toNat_append, BitVec.toNat_append, BitVec.toNat_append]
  simp [Nat.shiftLeft_or_distrib, ← Nat.shiftLeft_add]

/-- The fields do not overlap, so their union is their sum. -/
theorem headerResult_toNat_eq_add (hd : Header) :
    (headerResult hd).toNat = hd.width.toNat * 2 ^ 16 + hd.height.toNat * 2 ^ 8 + hd.yOffset.toNat := by
  have hh := hd.height.isLt
  have hy := hd.yOffset.isLt
  have hlow : hd.height.toNat <<< 8 ||| hd.yOffset.toNat = hd.height.toNat * 2 ^ 8 + hd.yOffset.toNat := by
    rw [← Nat.shiftLeft_add_eq_or_of_lt hy, Nat.shiftLeft_eq]
  rw [headerResult_toNat, Nat.or_assoc, hlow, ← Nat.shiftLeft_add_eq_or_of_lt (by omega), Nat.shiftLeft_eq,
    Nat.add_assoc]

/-- The three fields put together again are bits 23:0 of the word. -/
theorem headerResult_header (hw : Word) : headerResult (header hw) = hw &&& 0x00FFFFFF := by
  apply BitVec.eq_of_toNat_eq
  have hmask : (hw &&& 0x00FFFFFF).toNat = hw.toNat % 2 ^ 24 := Nat.and_two_pow_sub_one_eq_mod _ 24
  rw [headerResult_toNat_eq_add, header_width, header_height, header_yOffset, hmask]
  omega

theorem exec_ghdr_inside {f : FontNo} {index : Word} {s : State} {hw : Word}
    (h : (s.cfg.font f).data[index.toNat]? = some hw) :
    exec (.ghdr f index) s = .next (s.withResult (hw &&& 0x00FFFFFF)) := by
  have hread : fontRead (s.cfg.font f) index.toNat = some hw := h
  rw [exec, execGhdr, hread, ← headerResult_header]

theorem exec_ghdr_outside {f : FontNo} {index : Word} {s : State} (h : (s.cfg.font f).data.length ≤ index.toNat) :
    exec (.ghdr f index) s = .next (s.withResult 0) := by
  rw [exec, execGhdr, (fontRead_eq_none _ _).2 h, rejectZero]

/-- Settles O26: inside the array the answer is the header put together again, outside it `GHDR` answers 0. -/
theorem ghdrReturnsTheMaskedHeader : Obligations.GhdrReturnsTheMaskedHeader := by
  refine ⟨fun f index s => ⟨exec_ghdr_outside, fun hw hread => ⟨exec_ghdr_inside hread, ?_⟩⟩, fun s hbold => ⟨rfl, ?_⟩⟩
  · rw [← headerResult_header, headerResult_toNat]
  · have hread : (s.cfg.font .bold).data[(5 : Word).toNat]? = some 0x00121008 := by
      rw [Config.font, hbold]
      rfl
    exact exec_ghdr_inside hread

end Sys2Proof.Machine
end

section
/-! Proofs of the family 41_xorchar.md: rejections and the advance (R121, R127), row extraction (R123), the pixels of a
draw (R126, R130). -/

namespace Sys2Proof.Machine

/-! ### Completion -/

/-- `XORCHAR` completes with what its draw gives. -/
theorem exec_xorchar_of_core {f : FontNo} {r : Region} {x y : Coord} {cp : CodePoint} {s : State} {fb : List Word}
    {adv : Nat} (h : xorCharCore s.cfg (s.cfg.font f) r x.toNat y.toNat cp s.fb = some (fb, adv)) :
    exec (.xorchar f r x y cp) s = .next ((s.withFb fb).withResult (BitVec.ofNat 32 adv)) := by
  rw [exec, execXorchar, h, finishDraw]

/-- The advance of a character with a header: `w + 3`, or 0 when the draw is rejected (41_xorchar.md R127). -/
theorem drawnAdvance_of_header {fnt : Font} {cp : CodePoint} {hd : Header} (h : glyphHeader fnt cp = some hd)
    (c : Config) (r : Region) :
    drawnAdvance c fnt r cp = if regionOk c r = true ∧ hd.width.toNat ≤ 32 then hd.width.toNat + 3 else 0 := by
  rw [drawnAdvance, h]

/-- `XORCHAR` of a readable character completes: RESULT is the advance, FB changes by the pixels of `glyphFlips`, and
nothing else changes. -/
theorem exec_xorchar_readable {f : FontNo} {cp : CodePoint} {s : State}
    (h : glyphReadable (s.cfg.font f) cp = true) (r : Region) (x y : Coord) :
    ∃ fb, exec (.xorchar f r x y cp) s =
        .next ((s.withFb fb).withResult (BitVec.ofNat 32 (drawnAdvance s.cfg (s.cfg.font f) r cp))) ∧
      fb.length = s.fb.length ∧
      (Memory.wf s.cfg s.fb = true → ∀ px py, px < 32 * s.cfg.wpl → py < s.cfg.lines →
        pixel s.cfg fb px py =
          xor (pixel s.cfg s.fb px py) (glyphFlips s.cfg (s.cfg.font f) r x.toNat y.toNat cp px py)) := by
  obtain ⟨fb, hcore, hlen, hpixel⟩ := xorCharCore_readable h r x.toNat y.toNat s.fb
  exact ⟨fb, exec_xorchar_of_core hcore, hlen, hpixel⟩

/-! ### Rejection (41_xorchar.md R121) -/

theorem xorCharCore_of_invalid_region {c : Config} {r : Region} (hr : regionOk c r = false) (fnt : Font) (x y : Nat)
    (cp : CodePoint) (fb : List Word) : xorCharCore c fnt r x y cp fb = some (fb, 0) := by
  simp [xorCharCore, hr]

/-- A glyph wider than 32 is rejected in every Region, for an invalid Region is rejected before. -/
theorem xorCharCore_of_wide_glyph {fnt : Font} {cp : CodePoint} {hd : Header} (hh : glyphHeader fnt cp = some hd)
    (hw : hd.width.toNat > 32) (c : Config) (r : Region) (x y : Nat) (fb : List Word) :
    xorCharCore c fnt r x y cp fb = some (fb, 0) := by
  cases hr : regionOk c r with
  | false => exact xorCharCore_of_invalid_region hr fnt x y cp fb
  | true => simp [xorCharCore, hr, hh, maxGlyphWidth, hw]

/-- Settles O27: in both cases the draw leaves FB and advances by 0. -/
theorem xorcharRejectsBadRegionAndWideGlyph : Obligations.XorcharRejectsBadRegionAndWideGlyph := by
  refine fun f r x y cp s => ⟨fun hbad => ?_, fun hd hh hw => ?_⟩
  · have hr : regionOk s.cfg r = false := by
      rw [Bool.eq_false_iff, ne_eq, regionOk_iff]
      omega
    exact exec_xorchar_of_core (xorCharCore_of_invalid_region hr _ _ _ cp s.fb)
  · exact exec_xorchar_of_core (xorCharCore_of_wide_glyph hh hw s.cfg r _ _ s.fb)

/-! ### The advance (41_xorchar.md R127) -/

/-- Settles O28: RESULT is the advance, which is 0 for a rejected draw and from 3 to 35 otherwise. -/
theorem xorcharReturnsTheAdvance : Obligations.XorcharReturnsTheAdvance := by
  intro f r x y cp s hd hreadable hh
  obtain ⟨fb, hexec, -⟩ := exec_xorchar_readable hreadable r x y
  rw [drawnAdvance_of_header hh] at hexec
  refine ⟨_, hexec, rfl, ?_⟩
  rw [State.withResult_result]
  by_cases haccepted : regionOk s.cfg r = true ∧ hd.width.toNat ≤ 32
  · have hresult : (BitVec.ofNat 32 (hd.width.toNat + 3)).toNat = hd.width.toNat + 3 := by
      rw [BitVec.toNat_ofNat, Nat.mod_eq_of_lt (by omega)]
    have hpos : BitVec.ofNat 32 (hd.width.toNat + 3) ≠ 0 := fun h => by simp [h] at hresult
    rw [if_pos haccepted, hresult]
    exact ⟨fun _ => by omega, fun h => absurd h hpos, fun h => absurd haccepted h⟩
  · rw [if_neg haccepted]
    exact ⟨fun h => absurd h haccepted, fun _ => haccepted, fun _ => rfl⟩

/-! ### Row extraction (41_xorchar.md R123) -/

/-- A row below the height of a readable glyph has a pattern: the payload word of its last pixel exists. -/
theorem rowPattern_of_readable {fnt : Font} {cp : CodePoint} {hd : Header} {row : Nat}
    (h : glyphReadable fnt cp = true) (hh : glyphHeader fnt cp = some hd) (hw1 : 1 ≤ hd.width.toNat)
    (hw : hd.width.toNat ≤ 32) (hrow : row < hd.height.toNat) :
    ∃ pat, rowPattern fnt (glyphIndex fnt cp) hd.width.toNat row = some pat := by
  refine Option.ne_none_iff_exists'.1 fun hnone => payload_in_range h hh (rows := row + 1) hrow ⟨hw1, by omega, ?_⟩
  rw [Nat.succ_mul]
  exact (rowPattern_eq_none hw1 hw).1 hnone

/-- Settles O32: the row has a pattern, and a pattern's pixels are the glyph's bits. -/
theorem rowPatternIsTheGlyphRow : Obligations.RowPatternIsTheGlyphRow := by
  intro fnt cp hd row hreadable hh hw1 hw hrow
  obtain ⟨pat, hpat⟩ := rowPattern_of_readable hreadable hh hw1 hw hrow
  exact ⟨pat, hpat, fun _ hj => wordPixel_rowPattern hpat hw1 hw hj⟩

/-! ### The pixels (41_xorchar.md R126, R130) -/

/-- What an accepted glyph puts at a pixel: its bit there, nothing outside its columns and drawn rows. -/
theorem glyphFlips_of_accepted {c : Config} {fnt : Font} {r : Region} {cp : CodePoint} {hd : Header}
    (hh : glyphHeader fnt cp = some hd) (hr : regionOk c r = true) (hw : hd.width.toNat ≤ 32) (x y px py : Nat) :
    glyphFlips c fnt r x y cp px py =
      (decide (x + 1 ≤ px ∧ px < x + 1 + hd.width.toNat ∧ y + hd.yOffset.toNat ≤ py ∧
          py < y + hd.yOffset.toNat + hd.height.toNat ∧ py < r.y1.toNat) &&
        glyphBit fnt (glyphIndex fnt cp) hd.width.toNat (py - (y + hd.yOffset.toNat)) (px - (x + 1))) := by
  simp [glyphFlips, hh, hr, hw]

/-- Settles O29: FB changes by the pixels of `glyphFlips`. -/
theorem xorcharFlipsExactlyTheGlyphPixels : Obligations.XorcharFlipsExactlyTheGlyphPixels := by
  rintro f r x y cp s hd ⟨-, hwf, -⟩ hreadable hh hr hw
  obtain ⟨fb, hexec, hlen, hpixel⟩ := exec_xorchar_readable hreadable r x y
  refine ⟨_, hexec, hlen, fun px py hx hy => ?_⟩
  refine (hpixel hwf px py hx hy).trans ?_
  rw [glyphFlips_of_accepted hh hr hw]
  split
  case isTrue hin => rw [decide_eq_true hin, Bool.true_and]
  case isFalse hout => rw [decide_eq_false hout, Bool.false_and, Bool.xor_false]

/-- Settles O31: the glyph's columns lie between `x0` and `x1`, its drawn rows between `y0` and `y1`, and a valid Region
lies within the screen, so within FB's storage. -/
theorem xorcharStaysInTheRegionUnderTheContract : Obligations.XorcharStaysInTheRegionUnderTheContract := by
  intro f r x y cp s hd hinv hreadable hh hr hw hleft hright htop
  obtain ⟨t, hexec, -, hpixel⟩ := xorcharFlipsExactlyTheGlyphPixels f r x y cp s hd hinv hreadable hh hr hw
  obtain ⟨hx1, hy1, -, -⟩ := (regionOk_iff s.cfg r).1 hr
  obtain ⟨-, -, -, -, -, hstorage⟩ := config_bounds hinv.1
  refine ⟨t, hexec, fun px py hx hy hchanged => ?_, fun row k hrow hk => ?_⟩
  · rw [hpixel px py hx hy] at hchanged
    split at hchanged
    case isTrue hin => omega
    case isFalse => exact absurd rfl hchanged
  · have hrows : row < hd.height.toNat ∧ y.toNat + hd.yOffset.toNat + row < r.y1.toNat := by
      unfold effectiveHeight at hrow
      omega
    refine ⟨(fbGuard_iff _ _ _).2 ⟨by omega, by omega⟩, ?_⟩
    rw [hpixel _ _ (by omega) (by omega), if_pos (by omega), Nat.add_sub_cancel_left, Nat.add_sub_cancel_left]

end Sys2Proof.Machine
end

section
/-! Proofs of the family 41_xorchar.md: a draw cancels itself, and draws commute (R129). -/

namespace Sys2Proof.Machine

/-- With the parameters `c`, command `i` completes in every state and XORs the same words into every frame buffer. -/
def XorsWords (c : Config) (i : Instr) : Prop :=
  ∃ F v m, ActsBy c i F v ∧ ∀ fb, XorBy m fb (F fb)

theorem ActsBy.eq_of_exec {i : Instr} {F : List Word → List Word} {v : Option Word} {s t : State}
    (h : ActsBy s.cfg i F v) (ht : exec i s = .next t) : t = (s.withFb (F s.fb)).withResult (v.getD s.result) :=
  Host.Outcome.next.inj (ht.symm.trans (h s rfl))

/-- No command changes the parameters (10_state.md R20). -/
theorem exec_cfg {i : Instr} {s t : State} (h : exec i s = .next t) : t.cfg = s.cfg := by
  obtain ⟨fb, v, rfl, -⟩ := exec_next h
  rfl

/-- A command that XORs the same words each time restores FB when it runs twice, and leaves all else as the first run
did. -/
theorem XorsWords.exec_twice {s t : State} {i : Instr} (h : XorsWords s.cfg i) (ht : exec i s = .next t) :
    exec i t = .next (t.withFb s.fb) := by
  obtain ⟨F, v, m, hacts, hxor⟩ := h
  have htq := hacts.eq_of_exec ht
  have hrestored : F t.fb = s.fb := by rw [htq]; exact (hxor s.fb).cancel (hxor _)
  have hresult : v.getD t.result = t.result := by rw [htq]; cases v <;> rfl
  rw [hacts t (exec_cfg ht), hrestored, hresult]
  rfl

/-- Two commands that each XOR the same words each time may be exchanged. -/
theorem XorsWords.exec_comm {s a ab : State} {i j : Instr} (hi : XorsWords s.cfg i) (hj : XorsWords a.cfg j)
    (ha : exec i s = .next a) (hab : exec j a = .next ab) :
    ∃ b ba, exec j s = .next b ∧ exec i b = .next ba ∧ ba.fb = ab.fb := by
  obtain ⟨F, v, m, hactsF, hxorF⟩ := hi
  obtain ⟨G, w, n, hactsG, hxorG⟩ := hj
  have hb := hactsG s (exec_cfg ha).symm
  refine ⟨_, _, hb, hactsF _ (exec_cfg hb), ?_⟩
  rw [hactsG.eq_of_exec hab, hactsF.eq_of_exec ha]
  exact XorBy.unique (fun k => BitVec.xor_comm (n k) (m k)) ((hxorG s.fb).trans (hxorF _))
    ((hxorF s.fb).trans (hxorG _))

/-- An `XORCHAR` that completes in one state XORs the same words in every state with these parameters. -/
theorem xorsWords_xorchar {f : FontNo} {r : Region} {x y : Coord} {cp : CodePoint} {s t : State}
    (h : exec (.xorchar f r x y cp) s = .next t) : XorsWords s.cfg (.xorchar f r x y cp) := by
  obtain ⟨fb, adv, hcore, -⟩ := finishDraw_next h
  rcases xorCharCore_uniform s.cfg (s.cfg.font f) r x.toNat y.toNat cp with hnone | ⟨adv, m, huniform⟩
  · simp [hnone] at hcore
  · choose F hdraw hxor using huniform
    exact ⟨F, some (BitVec.ofNat 32 adv), m, fun u hu => exec_xorchar_of_core (hu ▸ hdraw u.fb), hxor⟩

/-- Settles O30: an `XORCHAR` that completes XORs words that depend on its operands and the parameters alone. -/
theorem xorcharTwiceRestoresAndDrawsCommute : Obligations.XorcharTwiceRestoresAndDrawsCommute := by
  refine ⟨fun f r x y cp s t ht => ?_, fun f f' r r' x y x' y' cp cp' s a ab ha hab => ?_⟩
  · exact ⟨_, (xorsWords_xorchar ht).exec_twice ht, rfl, rfl⟩
  · exact (xorsWords_xorchar ha).exec_comm (xorsWords_xorchar hab) ha hab

end Sys2Proof.Machine
end

section
/-! Proofs of the family 42_string.md: the character loop of `DRAWSTR` (R140, R141), its total advance and the pixels it
flips. -/

namespace Sys2Proof.Machine

/-! ### One character (41_xorchar.md R125, R127) -/

/-- The advance of a character in terms of its width. -/
theorem drawnAdvance_of_charWidth {fnt : Font} {cp : CodePoint} {w : Nat} (h : charWidth fnt cp = some w) (c : Config)
    (r : Region) : drawnAdvance c fnt r cp = if regionOk c r = true ∧ w ≤ 32 then w + 3 else 0 := by
  obtain ⟨hd, hh, rfl⟩ := Option.map_eq_some_iff.1 h
  exact drawnAdvance_of_header hh c r

theorem drawnAdvance_le (c : Config) (fnt : Font) (r : Region) (cp : CodePoint) : drawnAdvance c fnt r cp ≤ 35 := by
  cases hh : glyphHeader fnt cp with
  | none => simp [drawnAdvance, hh]
  | some hd =>
    rw [drawnAdvance_of_header hh]
    split <;> omega

/-- A draw that completes advances by `drawnAdvance` and flips the pixels of `glyphFlips`, also when the glyph is not
wholly readable: the rows that are drawn are. -/
theorem xorCharCore_some {c : Config} {fnt : Font} {r : Region} {x y adv : Nat} {cp : CodePoint} {fb fb' : List Word}
    (h : xorCharCore c fnt r x y cp fb = some (fb', adv)) :
    adv = drawnAdvance c fnt r cp ∧
      (Memory.wf c fb = true → ∀ px py, px < 32 * c.wpl → py < c.lines →
        pixel c fb' px py = xor (pixel c fb px py) (glyphFlips c fnt r x y cp px py)) := by
  rcases xorCharCore_cases c fnt r x y cp fb with ⟨hr, hcore⟩ | ⟨-, -, hcore⟩ | ⟨hr, hd, hh, hglyph⟩
  · cases hcore.symm.trans h
    cases hh : glyphHeader fnt cp <;> simp [drawnAdvance, glyphFlips, hh, hr]
  · cases hcore.symm.trans h
  · rcases hglyph with ⟨hwide, hcore⟩ | ⟨hw, ⟨-, -, -, hcore⟩ | ⟨-, fb1, hcore, -, hpixel⟩⟩
    · cases hcore.symm.trans h
      simp [drawnAdvance, glyphFlips, hh, Nat.not_le.2 hwide]
    · cases hcore.symm.trans h
    · cases hcore.symm.trans h
      refine ⟨by simp [drawnAdvance, hh, hr, hw], fun hwf px py hx hy => ?_⟩
      rw [hpixel hwf px py hx hy, glyphFlips_of_accepted hh hr hw]

/-- A character flips pixels of its own columns only, at or below its anchor's line and above the Region's bottom
edge. -/
theorem bounds_of_glyphFlips {c : Config} {fnt : Font} {r : Region} {x y px py : Nat} {cp : CodePoint}
    (h : glyphFlips c fnt r x y cp px py = true) :
    x + 1 ≤ px ∧ px + 3 ≤ x + drawnAdvance c fnt r cp ∧ y ≤ py ∧ py < r.y1.toNat := by
  cases hh : glyphHeader fnt cp with
  | none => simp [glyphFlips, hh] at h
  | some hd =>
    simp only [glyphFlips, hh, Bool.and_eq_true, decide_eq_true_eq] at h
    obtain ⟨⟨⟨hr, hw⟩, hin⟩, -⟩ := h
    rw [drawnAdvance_of_header hh, if_pos ⟨hr, hw⟩]
    omega

/-! ### The character loop (42_string.md R140) -/

section
variable {c : Config} {fnt : Font} {r : Region} {y : Nat}

/-- A string's draw completes exactly when its first character's does and the draw of the rest from there does. -/
theorem drawChars_cons_eq_some {cp : CodePoint} {cps : List CodePoint} {ax total : Nat} {fb fb' : List Word} :
    drawChars c fnt r y (cp :: cps) ax fb = some (fb', total) ↔
      ∃ fb1 adv rest, xorCharCore c fnt r ax y cp fb = some (fb1, adv) ∧
        drawChars c fnt r y cps (ax + adv) fb1 = some (fb', rest) ∧ total = adv + rest := by
  cases hcore : xorCharCore c fnt r ax y cp fb with
  | none => simp [drawChars, hcore]
  | some first =>
    obtain ⟨fb1, adv⟩ := first
    cases hrest : drawChars c fnt r y cps (ax + adv) fb1 with
    | none => simp [drawChars, hcore, hrest]
    | some rest => simp [drawChars, hcore, hrest, Prod.ext_iff, eq_comm]

/-- A rejected character leaves the loop as it was. -/
theorem drawChars_cons_of_rejected {cp : CodePoint} {ax : Nat} {fb : List Word}
    (h : xorCharCore c fnt r ax y cp fb = some (fb, 0)) (cps : List CodePoint) :
    drawChars c fnt r y (cp :: cps) ax fb = drawChars c fnt r y cps ax fb := by
  cases hrest : drawChars c fnt r y cps ax fb <;> simp [drawChars, h, hrest]

theorem drawChars_of_invalid_region (hr : regionOk c r = false) (str : List CodePoint) (ax : Nat) (fb : List Word) :
    drawChars c fnt r y str ax fb = some (fb, 0) := by
  induction str with
  | nil => rfl
  | cons cp cps ih => rw [drawChars_cons_of_rejected (xorCharCore_of_invalid_region hr ..), ih]

/-- A character that is rejected wherever it is drawn may be taken out of a string. -/
theorem drawChars_append_of_rejected {cp : CodePoint} (h : ∀ ax fb, xorCharCore c fnt r ax y cp fb = some (fb, 0))
    (pre post : List CodePoint) (ax : Nat) (fb : List Word) :
    drawChars c fnt r y (pre ++ cp :: post) ax fb = drawChars c fnt r y (pre ++ post) ax fb := by
  induction pre generalizing ax fb with
  | nil => exact drawChars_cons_of_rejected (h ax fb) post
  | cons first pre ih => simp only [List.cons_append, drawChars, ih]

/-- A string's draw that completes has the sum of the advances as its total and flips the pixels of `stringFlips`. -/
theorem drawChars_some {str : List CodePoint} {ax total : Nat} {fb fb' : List Word}
    (h : drawChars c fnt r y str ax fb = some (fb', total)) :
    total = advanceSum c fnt r str ∧
      (Memory.wf c fb = true → ∀ px py, px < 32 * c.wpl → py < c.lines →
        pixel c fb' px py = xor (pixel c fb px py) (stringFlips c fnt r y str ax px py)) := by
  induction str generalizing ax total fb with
  | nil =>
    cases h
    simp [advanceSum, stringFlips]
  | cons cp cps ih =>
    obtain ⟨fb1, adv, rest, hcore, hrest, rfl⟩ := drawChars_cons_eq_some.1 h
    obtain ⟨rfl, hfirst⟩ := xorCharCore_some hcore
    obtain ⟨rfl, hothers⟩ := ih hrest
    refine ⟨by simp [advanceSum], fun hwf px py hx hy => ?_⟩
    rw [hothers (xorCharCore_wf hwf hcore) px py hx hy, hfirst hwf px py hx hy, stringFlips, Bool.xor_assoc]

/-- A string flips pixels of its own columns only: each character's lie between its anchor and the next one's. -/
theorem bounds_of_stringFlips {str : List CodePoint} {ax px py : Nat}
    (h : stringFlips c fnt r y str ax px py = true) :
    ax + 1 ≤ px ∧ px + 3 ≤ ax + advanceSum c fnt r str ∧ y ≤ py ∧ py < r.y1.toNat := by
  induction str generalizing ax with
  | nil => simp [stringFlips] at h
  | cons cp cps ih =>
    have hsum : advanceSum c fnt r (cp :: cps) = drawnAdvance c fnt r cp + advanceSum c fnt r cps := by simp [advanceSum]
    cases hfirst : glyphFlips c fnt r ax y cp px py with
    | true =>
      have hbounds := bounds_of_glyphFlips hfirst
      omega
    | false =>
      have hbounds := ih (by simpa [stringFlips, hfirst] using h)
      omega

end

/-! ### The total advance -/

/-- The sum of the advances in terms of the characters' widths. -/
theorem advanceSum_of_charWidth {fnt : Font} {str : List CodePoint} {width : CodePoint → Nat}
    (h : ∀ cp ∈ str, charWidth fnt cp = some (width cp)) (c : Config) (r : Region) :
    advanceSum c fnt r str = (str.map fun cp => if regionOk c r = true ∧ width cp ≤ 32 then width cp + 3 else 0).sum :=
  congrArg List.sum (List.map_congr_left fun cp hmem => drawnAdvance_of_charWidth (h cp hmem) c r)

/-- The total of a string that has an encoding does not wrap in RESULT (42_string.md R140: at most 35·n). -/
theorem toNat_ofNat_advanceSum {str : List CodePoint} (hlen : str.length ≤ 65532) (c : Config) (fnt : Font)
    (r : Region) : (BitVec.ofNat 32 (advanceSum c fnt r str)).toNat = advanceSum c fnt r str := by
  have hsum : advanceSum c fnt r str ≤ str.length * 35 := by
    simpa [advanceSum] using List.sum_le_card_nsmul (str.map (drawnAdvance c fnt r)) 35
      (by simpa using fun cp _ => drawnAdvance_le c fnt r cp)
  rw [BitVec.toNat_ofNat, Nat.mod_eq_of_lt (by omega)]

/-! ### The command -/

/-- `DRAWSTR` completes with what its character loop gives. -/
theorem exec_drawstr_of_chars {f : FontNo} {r : Region} {x y : Coord} {str : List CodePoint} {s : State}
    {fb : List Word} {total : Nat}
    (h : drawChars s.cfg (s.cfg.font f) r y.toNat str x.toNat s.fb = some (fb, total)) :
    exec (.drawstr f r x y str) s = .next ((s.withFb fb).withResult (BitVec.ofNat 32 total)) := by
  rw [exec, execDrawstr, h, finishDraw]

/-- Settles O35: the widths give the sum of the advances, which does not wrap. -/
theorem drawstrReturnsTheSumOfTheAdvances : Obligations.DrawstrReturnsTheSumOfTheAdvances := by
  intro f r x y str s width hlen hchars
  obtain ⟨fb, hdraw, hfb, -⟩ :=
    drawChars_readable (c := s.cfg) r y.toNat str x.toNat s.fb fun cp hmem => (hchars cp hmem).1
  refine ⟨_, exec_drawstr_of_chars hdraw, rfl, hfb, ?_⟩
  rw [State.withResult_result, toNat_ofNat_advanceSum hlen]
  exact advanceSum_of_charWidth (fun cp hmem => (hchars cp hmem).2) s.cfg r

/-- Settles O36: the first character's advance is at most 35, so RESULT holds it without a wrap. -/
theorem drawstrIsXorcharThenTheRest : Obligations.DrawstrIsXorcharThenTheRest := by
  intro f r x x' y cp str s t u hfirst hx' hrest
  obtain ⟨fb1, adv, hcore, rfl⟩ := finishDraw_next hfirst
  obtain ⟨fb2, total, hdraw, rfl⟩ := finishDraw_next hrest
  have hadv : (BitVec.ofNat 32 adv).toNat = adv := by
    have hle : adv ≤ 35 := (xorCharCore_some hcore).1 ▸ drawnAdvance_le s.cfg (s.cfg.font f) r cp
    rw [BitVec.toNat_ofNat, Nat.mod_eq_of_lt (by omega)]
  rw [State.withResult_result, hadv] at hx'
  rw [hx'] at hdraw
  rw [exec_drawstr_of_chars (drawChars_cons_eq_some.2 ⟨fb1, adv, total, hcore, hdraw, rfl⟩), BitVec.ofNat_add]
  rfl

/-- Settles O37: a string of readable characters is drawn by the pixels of `stringFlips`. -/
theorem drawstrFlipsTheGlyphPixelsOfEachCharacter : Obligations.DrawstrFlipsTheGlyphPixelsOfEachCharacter := by
  rintro f r x y str s ⟨-, hwf, -⟩ hreadable
  obtain ⟨fb, hdraw, hlen, hpixel⟩ := drawChars_readable (c := s.cfg) r y.toNat str x.toNat s.fb hreadable
  exact ⟨_, exec_drawstr_of_chars hdraw, hlen, hpixel hwf⟩

/-- Settles O38: a changed pixel is one that `stringFlips` has, and RESULT is the sum of the advances. -/
theorem drawstrChangesOnlyColumnsOfItsString : Obligations.DrawstrChangesOnlyColumnsOfItsString := by
  rintro f r x y str s t ⟨-, hwf, -⟩ hlen hexec px py hx hy hchanged
  obtain ⟨fb, total, hdraw, rfl⟩ := finishDraw_next hexec
  obtain ⟨rfl, hpixel⟩ := drawChars_some hdraw
  rw [State.withResult_result, toNat_ofNat_advanceSum hlen]
  have hflip := hpixel hwf px py hx hy
  refine bounds_of_stringFlips (Bool.eq_true_of_not_eq_false fun hno => hchanged ?_)
  rw [hno, Bool.xor_false] at hflip
  exact hflip

/-- Settles O40: every character is rejected, or there is none. -/
theorem drawstrOfNothingChangesOnlyResult : Obligations.DrawstrOfNothingChangesOnlyResult := by
  rintro f r x y str s (hr | rfl)
  · exact exec_drawstr_of_chars (drawChars_of_invalid_region hr str x.toNat s.fb)
  · exact exec_drawstr_of_chars (fb := s.fb) (total := 0) rfl

/-- Settles O41: a glyph wider than 32 is rejected wherever it is drawn. -/
theorem drawstrPassesOverAnOversizedCharacter : Obligations.DrawstrPassesOverAnOversizedCharacter := by
  intro f r x y pre post cp hd s hh hw
  have hrejected := fun ax fb => xorCharCore_of_wide_glyph hh hw s.cfg r ax y.toNat fb
  exact congrArg (finishDraw f s) (drawChars_append_of_rejected hrejected pre post x.toNat s.fb)

end Sys2Proof.Machine
end

section
/-! Proofs of the family 42_string.md: the width sum of `STRWIDTH` (R142, R143) and its relation to `DRAWSTR`'s total
(R144). -/

namespace Sys2Proof.Machine

theorem charWidth_le {fnt : Font} {cp : CodePoint} {w : Nat} (h : charWidth fnt cp = some w) : w ≤ 255 := by
  obtain ⟨hd, -, rfl⟩ := Option.map_eq_some_iff.1 h
  omega

/-- The range of a width sum: from 3 to 258 for each character (42_string.md R142). -/
theorem widthSum_bounds {fnt : Font} {str : List CodePoint} {width : CodePoint → Nat}
    (h : ∀ cp ∈ str, charWidth fnt cp = some (width cp)) :
    str.length * 3 ≤ (str.map fun cp => width cp + 3).sum ∧
      (str.map fun cp => width cp + 3).sum ≤ str.length * 258 := by
  constructor
  · simp [List.sum_map_add]
  · simpa using List.sum_le_card_nsmul (str.map fun cp => width cp + 3) 258
      (by simpa using fun cp hmem => charWidth_le (h cp hmem))

theorem exec_strwidth_nil (f : FontNo) (s : State) : exec (.strwidth f []) s = .next (s.withResult 0) := rfl

/-- `STRWIDTH` of a non-empty string completes with its width sum less 1. -/
theorem exec_strwidth_of_sum {f : FontNo} {str : List CodePoint} {s : State} {total : Nat} (hne : str ≠ [])
    (h : widthSum (s.cfg.font f) str = some total) :
    exec (.strwidth f str) s = .next (s.withResult (BitVec.ofNat 32 (total - 1))) := by
  simp [exec, execStrwidth, hne, h]

/-- Settles O34: the sum of a non-empty string is from 3 to 258·65535, so less 1 it does not wrap. -/
theorem strwidthSumsWidthsPlusThreeLessOne : Obligations.StrwidthSumsWidthsPlusThreeLessOne := by
  intro f str s width hlen hwidth
  by_cases hempty : str = []
  · subst hempty
    exact ⟨_, exec_strwidth_nil f s, rfl, fun _ => rfl, fun hne => absurd rfl hne⟩
  · refine ⟨_, exec_strwidth_of_sum hempty (widthSum_eq str hwidth), rfl, fun h => absurd h hempty, fun _ => ?_⟩
    have hpos := List.length_pos_of_ne_nil hempty
    have hsum := widthSum_bounds hwidth
    rw [State.withResult_result, BitVec.toNat_ofNat, Nat.mod_eq_of_lt (by omega)]
    omega

/-- Settles O39: character by character the advance is at most `w + 3`, and less exactly when the glyph is wider
than 32. -/
theorem drawstrResultIsStrwidthPlusOne : Obligations.DrawstrResultIsStrwidthPlusOne := by
  intro f r x y str s width hinv hr hne hlen hchars
  obtain ⟨t, hdraw, -, -, ht⟩ := drawstrReturnsTheSumOfTheAdvances f r x y str s width hlen hchars
  obtain ⟨u, hwidth, -, -, hu⟩ :=
    strwidthSumsWidthsPlusThreeLessOne f str s width (by omega) fun cp hmem => (hchars cp hmem).2
  obtain ⟨hu, -, -⟩ := hu hne
  simp only [hr, true_and] at ht
  refine ⟨t, u, hdraw, hwidth, fun hnarrow => ?_, fun ⟨cp, hmem, hwide⟩ => ?_⟩
  · have hsame : t.result.toNat = u.result.toNat + 1 := by
      rw [ht, hu]
      exact congrArg List.sum (List.map_congr_left fun cp hmem => if_pos (hnarrow cp hmem))
    refine ⟨hsame, fun px py hx hy hchanged => ?_⟩
    have hbounds := drawstrChangesOnlyColumnsOfItsString f r x y str s t hinv hlen hdraw px py hx hy hchanged
    omega
  · rw [ht, hu]
    refine Nat.ne_of_lt (List.sum_lt_sum _ _ (fun cp _ => ?_) ⟨cp, hmem, ?_⟩)
    · split <;> omega
    · rw [if_neg (by omega)]
      omega

end Sys2Proof.Machine
end

section
/-! Proofs of the family 43_region.md: the operand checks (R150, R156, R158), the column masks (R151), and what `CLEAR`
and `INVERT` do to the pixels (R152 to R154). -/

namespace Sys2Proof.Machine

/-! ### The operand checks -/

section
variable {s : State}

theorem exec_clear_of_ok {r : Region} (h : regionOk s.cfg r = true) :
    exec (.clear r) s = .next (s.withFb (overRegion (fbOr s.cfg) r s.fb)) := if_pos h

theorem exec_clear_of_invalid {r : Region} (h : regionOk s.cfg r = false) : exec (.clear r) s = .next s :=
  if_neg (Bool.eq_false_iff.1 h)

theorem exec_invert_of_ok {r : Region} (h : regionOk s.cfg r = true) :
    exec (.invert r) s = .next (s.withFb (overRegion (fbXor s.cfg) r s.fb)) := if_pos h

theorem exec_invert_of_invalid {r : Region} (h : regionOk s.cfg r = false) : exec (.invert r) s = .next s :=
  if_neg (Bool.eq_false_iff.1 h)

theorem exec_outline_of_ok {y0 y1 : Coord} (h : outlineOk s.cfg y0.toNat y1.toNat = true) :
    exec (.outline y0 y1) s = .next (s.withFb (forLoop y0.toNat y1.toNat
      (fun py => setLine s.cfg py (patternWord (outlinePattern s.cfg y0.toNat y1.toNat py))) s.fb)) := if_pos h

theorem exec_outline_of_invalid {y0 y1 : Coord} (h : outlineOk s.cfg y0.toNat y1.toNat = false) :
    exec (.outline y0 y1) s = .next s := if_neg (Bool.eq_false_iff.1 h)

theorem exec_linefill_of_lt {y : Coord} (h : y.toNat < s.cfg.lines) (pat : List Word) :
    exec (.linefill y pat) s = .next (s.withFb (setLine s.cfg y.toNat (fun wl => pat.getD wl 0) s.fb)) := if_pos h

theorem exec_linefill_of_le {y : Coord} (h : s.cfg.lines ≤ y.toNat) (pat : List Word) :
    exec (.linefill y pat) s = .next s := if_neg (Nat.not_lt.2 h)

end

/-- Settles O43: each of these operands fails its command's check, and the command is then rejected. -/
theorem regionCommandsIgnoreMalformedBounds : Obligations.RegionCommandsIgnoreMalformedBounds := by
  refine fun r y0 y1 y pat s => ⟨fun hbad => ?_, fun hbad => ?_, fun hbad => exec_linefill_of_le hbad pat⟩
  · have hr : regionOk s.cfg r = false := by
      rw [Bool.eq_false_iff, ne_eq, regionOk_iff]
      omega
    exact ⟨exec_clear_of_invalid hr, exec_invert_of_invalid hr⟩
  · refine exec_outline_of_invalid ?_
    rw [Bool.eq_false_iff, ne_eq, outlineOk_iff]
    omega

/-! ### The column masks (43_region.md R151) -/

/-- `0xFFFFFFFF >> (x0 & 31)` has the pixels from `x0`'s on. -/
theorem wordPixel_leftMask (x0 : Nat) {j : Nat} (hj : j < 32) : wordPixel (leftMask x0) j = decide (x0 % 32 ≤ j) := by
  rw [wordPixel, leftMask, and_31, BitVec.getLsbD_ofNat, Nat.testBit_shiftRight,
    Nat.testBit_two_pow_sub_one 32, decide_eq_true (by omega : 31 - j < 32), Bool.true_and, decide_eq_decide]
  omega

/-- `0xFFFFFFFF << (31 − ((x1 − 1) & 31))` has the pixels up to that of column `x1 − 1`. -/
theorem wordPixel_rightMask (x1 : Nat) {j : Nat} (hj : j < 32) :
    wordPixel (rightMask x1) j = decide (j ≤ (x1 - 1) % 32) := by
  rw [wordPixel, rightMask, and_31, BitVec.getLsbD_ofNat, Nat.testBit_shiftLeft,
    Nat.testBit_two_pow_sub_one 32, ← Bool.decide_and, ← Bool.decide_and, decide_eq_decide]
  omega

theorem wordPixel_allOnes {j : Nat} (hj : j < 32) : wordPixel 0xFFFFFFFF j = true := by
  rw [wordPixel, show (0xFFFFFFFF : Word) = BitVec.allOnes 32 from rfl, BitVec.getLsbD_allOnes]
  exact decide_eq_true (by omega)

theorem maskLo_le_maskHi {x0 x1 : Nat} (h : x0 < x1) : maskLo x0 ≤ maskHi x1 := by
  rw [maskLo, maskHi, shiftRight_5, shiftRight_5]
  omega

theorem maskHi_lt {x1 wpl : Nat} (hpos : 0 < x1) (h : x1 ≤ 32 * wpl) : maskHi x1 < wpl := by
  rw [maskHi, shiftRight_5]
  omega

/-- A word between `lo` and `hi` has the columns at or past `x0` in the left factor of its mask, those before `x1` in
the right one. -/
theorem wordPixel_columnMask {x0 x1 wl j : Nat} (hx : x0 < x1) (hlo : maskLo x0 ≤ wl) (hhi : wl ≤ maskHi x1)
    (hj : j < 32) : wordPixel (columnMask x0 x1 wl) j = decide (x0 ≤ 32 * wl + j ∧ 32 * wl + j < x1) := by
  rw [maskLo, shiftRight_5] at hlo
  rw [maskHi, shiftRight_5] at hhi
  have hleft : wordPixel (if wl = maskLo x0 then leftMask x0 else 0xFFFFFFFF) j = decide (x0 ≤ 32 * wl + j) := by
    rw [maskLo, shiftRight_5]
    split
    · rw [wordPixel_leftMask x0 hj, decide_eq_decide]
      omega
    · rw [wordPixel_allOnes hj, eq_comm, decide_eq_true_iff]
      omega
  have hright : wordPixel (if wl = maskHi x1 then rightMask x1 else 0xFFFFFFFF) j = decide (32 * wl + j < x1) := by
    rw [maskHi, shiftRight_5]
    split
    · rw [wordPixel_rightMask x1 hj, decide_eq_decide]
      omega
    · rw [wordPixel_allOnes hj, eq_comm, decide_eq_true_iff]
      omega
  rw [columnMask, wordPixel_and, hleft, hright, Bool.decide_and]

/-- Settles O44, bound by bound and then word by word. -/
theorem columnMaskCoversExactlyTheRegionColumns : Obligations.ColumnMaskCoversExactlyTheRegionColumns :=
  fun _ _ _ hx hwidth hstorage => ⟨maskLo_le_maskHi hx, maskHi_lt (by omega) (by omega),
    fun _ _ hlo hhi hj => wordPixel_columnMask hx hlo hhi hj⟩

/-- The masks of the words `lo` to `hi` reach column `px` exactly when it is one of the Region's. -/
theorem column_masked_iff {x0 x1 : Nat} (hx : x0 < x1) (px : Nat) :
    (maskLo x0 ≤ px / 32 ∧ px / 32 ≤ maskHi x1 ∧ wordPixel (columnMask x0 x1 (px / 32)) (px % 32) = true) ↔
      x0 ≤ px ∧ px < x1 := by
  have hpx : 32 * (px / 32) + px % 32 = px := Nat.div_add_mod px 32
  have hj : px % 32 < 32 := Nat.mod_lt px (by decide)
  constructor
  · rintro ⟨hlo, hhi, hmask⟩
    rwa [wordPixel_columnMask hx hlo hhi hj, hpx, decide_eq_true_iff] at hmask
  · intro hin
    have hlo : maskLo x0 ≤ px / 32 := by rw [maskLo, shiftRight_5]; omega
    have hhi : px / 32 ≤ maskHi x1 := by rw [maskHi, shiftRight_5]; omega
    refine ⟨hlo, hhi, ?_⟩
    rwa [wordPixel_columnMask hx hlo hhi hj, hpx, decide_eq_true_iff]

/-! ### `CLEAR` and `INVERT` by pixels (43_region.md R152 to R154) -/

/-- The double loop over a valid Region does to every pixel of it what the access does to a bit under the mask, and
leaves every other bit of FB. -/
theorem pixel_overRegion_of_regionOk {c : Config} {access : Nat → Nat → Word → List Word → List Word}
    {g : Bool → Bool} (ha : MaskAccess c access g) {r : Region} (hr : regionOk c r = true) {fb : List Word}
    (hwf : Memory.wf c fb = true) {px py : Nat} (hx : px < 32 * c.wpl) (hy : py < c.lines) :
    pixel c (overRegion access r fb) px py =
      if r.x0.toNat ≤ px ∧ px < r.x1.toNat ∧ r.y0.toNat ≤ py ∧ py < r.y1.toNat then g (pixel c fb px py)
      else pixel c fb px py := by
  obtain ⟨-, -, hx01, hy01⟩ := (regionOk_iff c r).1 hr
  obtain ⟨-, hpixel⟩ := pixel_overRegion ha r (Nat.le_of_lt hy01) (maskLo_le_maskHi hx01) hwf
  rw [hpixel px py hx hy]
  refine if_congr ?_ rfl rfl
  rw [column_masked_iff hx01]
  tauto

/-- Settles O45: `FbOr` makes a bit under the mask 1. -/
theorem clearSetsExactlyTheRegion : Obligations.ClearSetsExactlyTheRegion :=
  fun r s ⟨_, hwf, _⟩ hr => ⟨_, exec_clear_of_ok hr, rfl, overRegion_length (fbOr_length s.cfg) r s.fb,
    fun _ _ hx hy => pixel_overRegion_of_regionOk (maskAccess_fbOr s.cfg) hr hwf hx hy⟩

/-- Settles O46: `FbXor` flips a bit under the mask. -/
theorem invertFlipsExactlyTheRegion : Obligations.InvertFlipsExactlyTheRegion :=
  fun r s ⟨_, hwf, _⟩ hr => ⟨_, exec_invert_of_ok hr, rfl, overRegion_length (fbXor_length s.cfg) r s.fb,
    fun _ _ hx hy => pixel_overRegion_of_regionOk (maskAccess_fbXor s.cfg) hr hwf hx hy⟩

/-- A frame buffer of the same length keeps the invariant. -/
theorem State.Inv.withFb {s : State} (h : s.Inv) {fb : List Word} (hlen : fb.length = s.fb.length) :
    (s.withFb fb).Inv := by
  obtain ⟨hok, hwf, hpending⟩ := h
  exact ⟨hok, fb_wf_of_length hlen hwf, hpending⟩

/-- Settles O47: the `INVERT` flips the pixels that the `CLEAR` has made 1, and neither touches another bit. -/
theorem clearThenInvertBlackensTheRegion : Obligations.ClearThenInvertBlackensTheRegion := by
  intro r s hinv
  cases hr : regionOk s.cfg r with
  | false =>
    exact ⟨s, s, exec_clear_of_invalid hr, exec_invert_of_invalid hr, by simp, fun _ => ⟨rfl, rfl⟩⟩
  | true =>
    obtain ⟨t, hclear, ht, hlen, hset⟩ := clearSetsExactlyTheRegion r s hinv hr
    have hcfg : t.cfg = s.cfg := exec_cfg hclear
    obtain ⟨u, hinvert, -, -, hflip⟩ :=
      invertFlipsExactlyTheRegion r t (ht ▸ hinv.withFb hlen) (hcfg ▸ hr)
    rw [hcfg] at hflip
    refine ⟨t, u, hclear, hinvert, fun _ px py hx hy => ?_, by simp⟩
    rw [hflip px py hx hy, hset px py hx hy]
    split <;> rfl

/-! ### `INVERT` as an XOR with fixed words (43_region.md R153) -/

/-- A valid `INVERT` XORs words that depend on its Region alone, an invalid one XORs nothing. -/
theorem xorsWords_invert (c : Config) (r : Region) : XorsWords c (.invert r) := by
  cases hr : regionOk c r with
  | true =>
    obtain ⟨m, hxor⟩ := overRegion_xorBy c r
    exact ⟨overRegion (fbXor c) r, none, m, by rintro s rfl; exact exec_invert_of_ok hr, hxor⟩
  | false => exact ⟨id, none, _, by rintro s rfl; exact exec_invert_of_invalid hr, XorBy.refl⟩

/-- `INVERT` completes in every state and changes nothing but FB. -/
theorem exec_invert_next (r : Region) (s : State) : ∃ fb, exec (.invert r) s = .next (s.withFb fb) := by
  cases hr : regionOk s.cfg r with
  | true => exact ⟨_, exec_invert_of_ok hr⟩
  | false => exact ⟨s.fb, exec_invert_of_invalid hr⟩

/-- Settles O48: `INVERT` and an `XORCHAR` that completes each XOR the same words every time. -/
theorem invertTwiceRestoresAndCommutesWithXorchar : Obligations.InvertTwiceRestoresAndCommutesWithXorchar := by
  refine ⟨fun r s => ?_, fun r r' f x y cp s a ab ha hab => ?_⟩
  · obtain ⟨fb, hfirst⟩ := exec_invert_next r s
    exact ⟨_, _, hfirst, (xorsWords_invert s.cfg r).exec_twice hfirst, rfl⟩
  · exact (xorsWords_xorchar ha).exec_comm (xorsWords_invert a.cfg r') ha hab

end Sys2Proof.Machine
end

section
/-! Proofs of the family 43_region.md: the line assignments of `OUTLINE` and `LINEFILL` (R155, R156, R158). -/

namespace Sys2Proof.Machine

/-! ### `OUTLINE` (43_region.md R155, R156) -/

/-- Settles O50: each pattern's eleven words computed. -/
theorem scanlinePatternsOfTheReferenceDevice : Obligations.ScanlinePatternsOfTheReferenceDevice :=
  ⟨by decide, by decide, by decide⟩

/-- Assigning one line after another: each assigned line has its own words' pixels, every other line is unchanged. -/
theorem pixel_lineLoop {c : Config} {fb : List Word} (hwf : Memory.wf c fb = true) (word : Nat → Nat → Word)
    {a b : Nat} (hab : a ≤ b) :
    (forLoop a b (fun py => setLine c py (word py)) fb).length = fb.length ∧
    ∀ px py, px < 32 * c.wpl → py < c.lines →
      pixel c (forLoop a b (fun py => setLine c py (word py)) fb) px py =
        if a ≤ py ∧ py < b then wordPixel (word py (px / 32)) (px % 32) else pixel c fb px py := by
  refine forLoop_induct (fun k fb' => fb'.length = fb.length ∧ ∀ px py, px < 32 * c.wpl → py < c.lines →
      pixel c fb' px py = if a ≤ py ∧ py < k then wordPixel (word py (px / 32)) (px % 32) else pixel c fb px py)
    _ hab fb ⟨rfl, fun px py _ _ => (if_neg (by omega)).symm⟩ ?_
  rintro k fb' hak - ⟨hlen, hpixel⟩
  refine ⟨(setLine_length _ _ _ _).trans hlen, fun px py hx hy => ?_⟩
  rw [pixel_setLine (fb_wf_of_length hlen hwf) k (word k) hx hy, hpixel px py hx hy]
  by_cases hk : k = py
  · subst hk
    rw [if_pos rfl, if_pos (by omega)]
  · rw [if_neg hk]
    exact if_congr (by omega) rfl rfl

/-- The pattern of a line of the box, said by the line's distance from the box's edges. -/
theorem outlinePattern_eq (c : Config) {y0 y1 py : Nat} (hlow : y0 ≤ py) (hhigh : py < y1) (px : Nat) :
    outlinePattern c y0 y1 py px =
      if py < y0 + 2 ∨ y1 ≤ py + 2 then true
      else if py = y0 + 2 ∨ py + 3 = y1 then decide (px < 2 ∨ c.lineWidth < px + 3)
      else decide (px ≠ 2 ∧ px + 3 ≠ c.lineWidth) := by
  have hclear : (py - y0 < 2 ∨ y1 - 1 - py < 2) ↔ (py < y0 + 2 ∨ y1 ≤ py + 2) := by omega
  have hsolid : (py - y0 = 2 ∨ y1 - 1 - py = 2) ↔ (py = y0 + 2 ∨ py + 3 = y1) := by omega
  simp only [outlinePattern, hclear, hsolid]
  split
  · rfl
  · split
    · rw [solidLine, ← Bool.decide_and, ← decide_not, decide_eq_decide]
      omega
    · rw [borderLine, ← Bool.decide_or, ← decide_not, decide_eq_decide, not_or]

/-- Settles O49: line by line `OUTLINE` assigns the words of its pattern. -/
theorem outlineWritesTheBox : Obligations.OutlineWritesTheBox := by
  rintro y0 y1 s ⟨-, hwf, -⟩ hlt hlines hheight
  obtain ⟨hlen, hpixel⟩ := pixel_lineLoop hwf
    (fun py => patternWord (outlinePattern s.cfg y0.toNat y1.toNat py)) (Nat.le_of_lt hlt)
  refine ⟨_, exec_outline_of_ok ((outlineOk_iff _ _ _).2 ⟨hlt, hlines, hheight⟩), rfl, hlen, fun px py hx hy => ?_⟩
  refine (hpixel px py hx hy).trans ?_
  by_cases hbox : y0.toNat ≤ py ∧ py < y1.toNat
  · rw [if_pos hbox, if_neg (by omega), wordPixel_patternWord, outlinePattern_eq s.cfg hbox.1 hbox.2]
  · rw [if_neg hbox, if_pos (by omega)]

/-! ### `LINEFILL` (43_region.md R158) -/

/-- Assigning a line, said by words: the words of that line are those given, every other word is unchanged. -/
theorem fbRead_setLine {c : Config} {line : Nat} (hline : line < c.lines) (word : Nat → Word) (fb : List Word)
    (i : Nat) :
    fbRead (setLine c line word fb) i =
      if line * c.wpl ≤ i ∧ i < line * c.wpl + c.wpl ∧ i < fb.length then word (i - line * c.wpl) else fbRead fb i := by
  refine (forLoop_induct (fun k fb' => fb'.length = fb.length ∧ fbRead fb' i =
      if line * c.wpl ≤ i ∧ i < line * c.wpl + k ∧ i < fb.length then word (i - line * c.wpl) else fbRead fb i)
    (fun wl => fbSet c line wl (word wl)) (Nat.zero_le c.wpl) fb ⟨rfl, (if_neg (by omega)).symm⟩ ?_).2
  rintro k fb' - hk ⟨hlen, hread⟩
  refine ⟨(fbSet_length _ _ _ _ _).trans hlen, ?_⟩
  have hguard : fbGuard c line k = true := (fbGuard_iff c line k).2 ⟨hline, hk⟩
  simp only [fbRead_fbSet, hguard, true_and, hlen, hread, fbIndex]
  by_cases hi : line * c.wpl + k = i ∧ i < fb.length
  · rw [if_pos hi, if_pos (by omega), ← hi.1, Nat.add_sub_cancel_left]
  · rw [if_neg hi]
    exact if_congr (by omega) rfl rfl

/-- Settles O51: a line below LINES lies within FB, so each of its words is assigned. -/
theorem linefillWritesTheLineVerbatim : Obligations.LinefillWritesTheLineVerbatim := by
  rintro y pat s ⟨-, hwf, -⟩ hpat hy
  refine ⟨_, exec_linefill_of_lt hy pat, rfl, setLine_length _ _ _ _, fun wl v hv => ?_, fun i hi => ?_⟩
  · have hwl : wl < s.cfg.wpl := hpat ▸ (List.getElem?_eq_some_iff.1 hv).1
    have hin : y.toNat * s.cfg.wpl + wl < s.fb.length := by
      rw [(wf_iff _ _).1 hwf]
      exact fbIndex_lt s.cfg hy hwl
    rw [State.withFb_fb, fbRead_setLine hy, if_pos ⟨by omega, by omega, hin⟩, Nat.add_sub_cancel_left, List.getD, hv]
    rfl
  · rw [Nat.succ_mul] at hi
    rw [State.withFb_fb, fbRead_setLine hy, if_neg (by omega)]

end Sys2Proof.Machine
end

section
/-! Proofs of the family 60_exceptions.md: the idle engine (R192). -/

namespace Sys2Proof.Machine

/-- With no host move to come the engine idles: the counterpart of `step_of_move`. -/
theorem step_of_no_input {s : State} (h : s.input = []) : step s = .next s := by
  simp only [step, h]

/-- Settles O15: only a host move changes the state. -/
theorem idleStepChangesNothing : Obligations.IdleStepChangesNothing :=
  fun _ => step_of_no_input

end Sys2Proof.Machine
end
